-- ==== Sys2Proof/Word.lean ====
section
/-! DEFINITION. The block's word types (spec R9, R22): a byte, a 64-bit lane, a lane coordinate. -/

namespace Sys2Proof

/-- A byte, an unsigned value 0 to 255 (R9). -/
abbrev Byte := BitVec 8

/-- A lane, "a 64-bit unsigned value" (R9, R22). -/
abbrev Lane := BitVec 64

/-- A lane coordinate: 0 to 4, so that the reserved values 5, 6, 7 of the 3-bit field cannot be
written down (R85, R88, U1). -/
abbrev Coord := Fin 5

end Sys2Proof
end

