-- ==== Sys2Proof/Config.lean ====
section
/-! DEFINITION. What is fixed for every block (R6, R21) and the free values: what each register and each
byte of `S` holds after a reset event (R39, R210: "unspecified"; U3: "any value"). -/

namespace Sys2Proof

/-- The size of the state memory `S`: "always exactly 200 bytes" (R6, R21). -/
def Config.stateBytes : Nat := 200

/-- FREE VALUE: RATE after the n-th reset event (R39, log entry 3). -/
opaque Config.freeRate : Nat → BitVec 16

/-- FREE VALUE: CAPACITY after the n-th reset event (R39, log entry 3). -/
opaque Config.freeCapacity : Nat → BitVec 16

/-- FREE VALUE: SUFFIX after the n-th reset event (R39, log entry 3). -/
opaque Config.freeSuffix : Nat → BitVec 8

/-- FREE VALUE: OUTLEN after the n-th reset event (R39, log entry 3). -/
opaque Config.freeOutlen : Nat → BitVec 32

/-- FREE VALUE: CUR after the n-th reset event (R39, log entry 3). -/
opaque Config.freeCur : Nat → BitVec 8

/-- FREE VALUE: LFSR after the n-th reset event (R39, log entry 3). -/
opaque Config.freeLfsr : Nat → BitVec 8

/-- FREE VALUE: the byte `S[a]` after the n-th reset event, `n` first, `a` second (R39, log entry 3). -/
opaque Config.freeStateByte : Nat → Nat → Byte

end Sys2Proof
end

