-- ==== Sys2Proof/Syntax.lean ====
section
/-! DEFINITION. The operations of the block, one constructor for each row of spec/opcode_table.json
(R81, R82, R87), the five pseudo-command rows included (R92). -/

namespace Sys2Proof

/-- The two operation formats of R80; their code spaces are separate (R87). -/
inductive Format where
  /-- A command, presented by the host (R81). -/
  | cmd
  /-- A unit operation, issued by the block's sequencer (R82). -/
  | uop
  deriving DecidableEq, Repr

/-- An operation with its operand record. ABSORB's operand `buflen` is the length of `buf` (R84, R91)
and is written by the encoder; it is not a second copy of that number here. -/
inductive Instr where
  /-- CONSTRUCT rate, capacity, suffix, outlen (R83, R150). -/
  | construct (rate capacity : BitVec 16) (suffix : Byte) (outlen : BitVec 32)
  /-- INITIALIZE (R151). -/
  | initialise
  /-- ABSORB buf, offset, length (R84, R152). -/
  | absorb (buf : List Byte) (offset length : BitVec 32)
  /-- FINALIZE (R155). -/
  | finalize
  /-- LOADLANE x, y (R110). -/
  | loadlane (x y : Coord)
  /-- SAVELANE x, y, v (R111). -/
  | savelane (x y : Coord) (v : Lane)
  /-- XORLANE x, y, v (R112). -/
  | xorlane (x y : Coord) (v : Lane)
  /-- LFSRSTEP (R121). -/
  | lfsrstep
  /-- THETA (R130). -/
  | theta
  /-- RHOPI (R131). -/
  | rhopi
  /-- CHI (R133). -/
  | chi
  /-- IOTA (R134). -/
  | iota
  /-- ROUND (R136). -/
  | round
  /-- KECCAKF (R137). -/
  | keccakf
  /-- Pseudo-command DIGEST224 (R92, R159). -/
  | digest224
  /-- Pseudo-command DIGEST256 (R92, R159). -/
  | digest256
  /-- Pseudo-command DIGEST384 (R92, R159). -/
  | digest384
  /-- Pseudo-command DIGEST512 (R92, R159). -/
  | digest512
  /-- Pseudo-command ABSORB buf, the source's `absorb(bytes)` (R84, R92). -/
  | absorbBuf (buf : List Byte)
  deriving DecidableEq, Repr

/-- The format an operation is presented in (R81, R82; a pseudo-command is a command, R92). -/
def Instr.format : Instr → Format
  | .construct _ _ _ _ => .cmd
  | .initialise => .cmd
  | .absorb _ _ _ => .cmd
  | .finalize => .cmd
  | .loadlane _ _ => .uop
  | .savelane _ _ _ => .uop
  | .xorlane _ _ _ => .uop
  | .lfsrstep => .uop
  | .theta => .uop
  | .rhopi => .uop
  | .chi => .uop
  | .iota => .uop
  | .round => .uop
  | .keccakf => .uop
  | .digest224 => .cmd
  | .digest256 => .cmd
  | .digest384 => .cmd
  | .digest512 => .cmd
  | .absorbBuf _ => .cmd

end Sys2Proof
end

