-- ==== Sys2Proof/WellFormed.lean ====
section
/-! DEFINITION. Which operations are well-formed: those whose operand record can be presented.
Coordinates and field widths are already bounded by the types of `Instr` (R83, R85), and an operand
that is illegal by value is an exception of its command, not an ill-formed operation (R88), so the one
check left is that the length of `buf` fits the 32-bit field `buflen` (R84). -/

namespace Sys2Proof

/-- `buflen[31:0]` can hold the length of the buffer (R84). -/
def bufferFits (buf : List Byte) : Bool := decide (buf.length < 2 ^ 32)

/-- The operation has an operand record of R81 or R82. -/
def Instr.wellFormed : Instr → Bool
  | .construct _ _ _ _ => true
  | .initialise => true
  | .absorb buf _ _ => bufferFits buf
  | .finalize => true
  | .loadlane _ _ => true
  | .savelane _ _ _ => true
  | .xorlane _ _ _ => true
  | .lfsrstep => true
  | .theta => true
  | .rhopi => true
  | .chi => true
  | .iota => true
  | .round => true
  | .keccakf => true
  | .digest224 => true
  | .digest256 => true
  | .digest384 => true
  | .digest512 => true
  | .absorbBuf buf => bufferFits buf

end Sys2Proof
end

