-- ==== Sys2Proof/Decode.lean ====
section
/-! DEFINITION. From an operation record to an operation and back. The codes are those of R81 and R82
and the operands, their widths and their order those of R81 to R85; that the record is a list of bytes,
one for the code and then the operands, each least significant byte first, is the model's own layout
(DESIGN CHOICE, log entry 5: "the spec fixes no concatenation of the operand fields", R81). -/

namespace Sys2Proof

/-- Why a record names no operation. -/
inductive DecodeError where
  /-- The record has no code byte. -/
  | emptyRecord
  /-- A command code above the 2-bit field `op` (R81), or a unit code above the 4-bit field `uop` (R82). -/
  | codeTooWide
  /-- `uop` = 10 to 15, reserved (R82, R88). -/
  | reservedUop
  /-- A coordinate 5, 6 or 7, reserved (R85, R88, R114), or one above its 3-bit field. -/
  | reservedCoordinate
  /-- The operands are not the fixed record of the code (R80, R81): too few or too many bytes, or a
  `buflen` that is not the length of `buf`. -/
  | malformedOperands
  deriving DecidableEq, Repr

/-- A 16-bit operand from its two bytes, least significant first. -/
def word16 (b0 b1 : Byte) : BitVec 16 := b1 ++ b0

/-- A 32-bit operand from its four bytes, least significant first. -/
def word32 (b0 b1 b2 b3 : Byte) : BitVec 32 := b3 ++ b2 ++ b1 ++ b0

/-- A 64-bit operand from its eight bytes, least significant first. -/
def word64 (b0 b1 b2 b3 b4 b5 b6 b7 : Byte) : BitVec 64 :=
  b7 ++ b6 ++ b5 ++ b4 ++ b3 ++ b2 ++ b1 ++ b0

/-- A coordinate byte: 0 to 4, anything else is refused (R85, R88). -/
def decodeCoord (b : Byte) : Option Coord :=
  if h : b.toNat < 5 then some ⟨b.toNat, h⟩ else none

/-- The operands of CONSTRUCT: rate, capacity, suffix, outlen (R83). -/
def decodeConstruct : List Byte → Except DecodeError Instr
  | [r0, r1, c0, c1, sf, o0, o1, o2, o3] =>
    .ok (.construct (word16 r0 r1) (word16 c0 c1) sf (word32 o0 o1 o2 o3))
  | _ => .error .malformedOperands

/-- The operands of ABSORB: buflen, offset, length, then the `buflen` bytes of `buf` (R84). -/
def decodeAbsorb : List Byte → Except DecodeError Instr
  | l0 :: l1 :: l2 :: l3 :: f0 :: f1 :: f2 :: f3 :: n0 :: n1 :: n2 :: n3 :: buf =>
    if buf.length = (word32 l0 l1 l2 l3).toNat then
      .ok (.absorb buf (word32 f0 f1 f2 f3) (word32 n0 n1 n2 n3))
    else .error .malformedOperands
  | _ => .error .malformedOperands

/-- An operation without operands (R81, R82). -/
def decodeBare (i : Instr) : List Byte → Except DecodeError Instr
  | [] => .ok i
  | _ :: _ => .error .malformedOperands

/-- The operands x, y of LOADLANE (R82, R85). -/
def decodeLoad : List Byte → Except DecodeError Instr
  | [x, y] =>
    match decodeCoord x, decodeCoord y with
    | some x', some y' => .ok (.loadlane x' y')
    | _, _ => .error .reservedCoordinate
  | _ => .error .malformedOperands

/-- The operands x, y, v of SAVELANE and XORLANE (R82, R85). -/
def decodeStore (mk : Coord → Coord → Lane → Instr) : List Byte → Except DecodeError Instr
  | [x, y, v0, v1, v2, v3, v4, v5, v6, v7] =>
    match decodeCoord x, decodeCoord y with
    | some x', some y' => .ok (mk x' y' (word64 v0 v1 v2 v3 v4 v5 v6 v7))
    | _, _ => .error .reservedCoordinate
  | _ => .error .malformedOperands

/-- Format CMD: the four values of `op[1:0]` (R81). -/
def decodeCmd (code : Nat) (operands : List Byte) : Except DecodeError Instr :=
  match code with
  | 0 => decodeConstruct operands
  | 1 => decodeBare .initialise operands
  | 2 => decodeAbsorb operands
  | 3 => decodeBare .finalize operands
  | _ => .error .codeTooWide

/-- Format UOP: the ten values of `uop[3:0]` that name an operation (R82). -/
def decodeUop (code : Nat) (operands : List Byte) : Except DecodeError Instr :=
  match code with
  | 0 => decodeLoad operands
  | 1 => decodeStore .savelane operands
  | 2 => decodeStore .xorlane operands
  | 3 => decodeBare .lfsrstep operands
  | 4 => decodeBare .theta operands
  | 5 => decodeBare .rhopi operands
  | 6 => decodeBare .chi operands
  | 7 => decodeBare .iota operands
  | 8 => decodeBare .round operands
  | 9 => decodeBare .keccakf operands
  | n => if n < 16 then .error .reservedUop else .error .codeTooWide

/-- The operation a record names. The two code spaces are separate (R87): a record is decoded in the
format it is presented in. A pseudo-command is a spelling of its expansion (R92), so no record decodes
to one. -/
def decode (f : Format) (record : List Byte) : Except DecodeError Instr :=
  match record with
  | [] => .error .emptyRecord
  | c :: operands =>
    match f with
    | .cmd => decodeCmd c.toNat operands
    | .uop => decodeUop c.toNat operands

/-! ## The encoder -/

/-- The command a pseudo-command stands for (R92); every other operation stands for itself. -/
def Instr.expand : Instr → Instr
  | .digest224 => .construct 1152 448 0x06 28
  | .digest256 => .construct 1088 512 0x06 32
  | .digest384 => .construct 832 768 0x06 48
  | .digest512 => .construct 576 1024 0x06 64
  | .absorbBuf buf => .absorb buf 0 (BitVec.ofNat 32 buf.length)
  | .construct r c sf o => .construct r c sf o
  | .initialise => .initialise
  | .absorb buf off len => .absorb buf off len
  | .finalize => .finalize
  | .loadlane x y => .loadlane x y
  | .savelane x y v => .savelane x y v
  | .xorlane x y v => .xorlane x y v
  | .lfsrstep => .lfsrstep
  | .theta => .theta
  | .rhopi => .rhopi
  | .chi => .chi
  | .iota => .iota
  | .round => .round
  | .keccakf => .keccakf

/-- The bytes of a 16-bit operand, least significant first. -/
def bytes16 (w : BitVec 16) : List Byte := [w.extractLsb' 0 8, w.extractLsb' 8 8]

/-- The bytes of a 32-bit operand, least significant first. -/
def bytes32 (w : BitVec 32) : List Byte :=
  [w.extractLsb' 0 8, w.extractLsb' 8 8, w.extractLsb' 16 8, w.extractLsb' 24 8]

/-- The bytes of a 64-bit operand, least significant first. -/
def bytes64 (w : BitVec 64) : List Byte :=
  [w.extractLsb' 0 8, w.extractLsb' 8 8, w.extractLsb' 16 8, w.extractLsb' 24 8,
   w.extractLsb' 32 8, w.extractLsb' 40 8, w.extractLsb' 48 8, w.extractLsb' 56 8]

/-- The byte of a coordinate field. -/
def coordByte (x : Coord) : Byte := BitVec.ofNat 8 x.val

/-- The code of an operation in its format: `op` (R81) or `uop` (R82). -/
def Instr.code : Instr → Byte
  | .construct _ _ _ _ => 0
  | .initialise => 1
  | .absorb _ _ _ => 2
  | .finalize => 3
  | .loadlane _ _ => 0
  | .savelane _ _ _ => 1
  | .xorlane _ _ _ => 2
  | .lfsrstep => 3
  | .theta => 4
  | .rhopi => 5
  | .chi => 6
  | .iota => 7
  | .round => 8
  | .keccakf => 9
  | .digest224 => 0
  | .digest256 => 0
  | .digest384 => 0
  | .digest512 => 0
  | .absorbBuf _ => 2

/-- CONSTRUCT's operand bytes (R83). -/
def encodeConstruct (rate capacity : BitVec 16) (suffix : Byte) (outlen : BitVec 32) : List Byte :=
  bytes16 rate ++ bytes16 capacity ++ [suffix] ++ bytes32 outlen

/-- ABSORB's operand bytes: buflen, offset, length, buf (R84). -/
def encodeAbsorb (buf : List Byte) (offset length : BitVec 32) : List Byte :=
  bytes32 (BitVec.ofNat 32 buf.length) ++ bytes32 offset ++ bytes32 length ++ buf

/-- The operand bytes of an operation. -/
def Instr.operandBytes : Instr → List Byte
  | .construct r c sf o => encodeConstruct r c sf o
  | .initialise => []
  | .absorb buf off len => encodeAbsorb buf off len
  | .finalize => []
  | .loadlane x y => [coordByte x, coordByte y]
  | .savelane x y v => [coordByte x, coordByte y] ++ bytes64 v
  | .xorlane x y v => [coordByte x, coordByte y] ++ bytes64 v
  | .lfsrstep => []
  | .theta => []
  | .rhopi => []
  | .chi => []
  | .iota => []
  | .round => []
  | .keccakf => []
  | .digest224 => encodeConstruct 1152 448 0x06 28
  | .digest256 => encodeConstruct 1088 512 0x06 32
  | .digest384 => encodeConstruct 832 768 0x06 48
  | .digest512 => encodeConstruct 576 1024 0x06 64
  | .absorbBuf buf => encodeAbsorb buf 0 (BitVec.ofNat 32 buf.length)

/-- The record of an operation, presented in its own format. -/
def encode (i : Instr) : List Byte := i.code :: i.operandBytes

/-! ## The opcode table's words -/

/-- The format a word of spec/opcode_table.json is read in. The table's rows give CMD codes of 2 bits and
UOP codes of 4 bits, in two separate spaces (R87), and a word of whole bytes does not say which it is:
values 0 to 3 are read as commands, which is what the host presents, and all others as unit operations
(DESIGN CHOICE, log entry 6). A width of 2 or of 4 bits says which field it is. -/
def tableFormat (nbits w : Nat) : Format :=
  if nbits = 4 then .uop else if nbits = 2 then .cmd else if w < 4 then .cmd else .uop

/-- How many operand bytes the record of a code has, with `buf` empty. -/
def operandCount (f : Format) (code : Nat) : Nat :=
  match f with
  | .cmd => match code with
    | 0 => 9
    | 2 => 12
    | _ => 0
  | .uop => match code with
    | 0 => 2
    | 1 => 10
    | 2 => 10
    | _ => 0

/-- The record of a table word: its code byte, then as many operand bytes as the code has, those above the
word zero. -/
def tableRecord (nbits w : Nat) : List Byte :=
  let code := w % 256
  (BitVec.ofNat 8 code) ::
    (List.range (operandCount (tableFormat nbits w) code)).map (fun k => BitVec.ofNat 8 (w / 256 ^ (k + 1)))

/-- The operation the decoder reads from a word of the opcode table. -/
def decodeTableWord (nbits w : Nat) : Option Instr :=
  match decode (tableFormat nbits w) (tableRecord nbits w) with
  | .ok i => some i
  | .error _ => none

end Sys2Proof
end

