-- ==== Sys2Proof/Machine/State.lean ====
section
/-! DEFINITION. The state of one block (R20) and of its interface to the host (R19, R86): plain data. -/

namespace Sys2Proof.Machine

/-- The state memory `S` as a list of (offset, byte) pairs in one canonical form (`Memory.wf`): offsets
strictly rising and below 200, and no entry equal to what an unlisted offset reads as. -/
abbrev Memory := List Host.Cell

/-- The register PHASE (R34): a lifecycle register that the host cannot read, held by name. -/
inductive Phase where
  /-- 0: after reset, no parameters. -/
  | unconfigured
  /-- 1: constructed, not yet initialized. -/
  | configured
  /-- 2: initialized, zero or more bytes absorbed, not finalized. -/
  | absorbing
  /-- 3: finalize has run. -/
  | finalized
  deriving DecidableEq, Repr

/-- `PHASE[1:0]` (R34). -/
def Phase.code : Phase → BitVec 2
  | .unconfigured => 0
  | .configured => 1
  | .absorbing => 2
  | .finalized => 3

/-- The response status (R86, R180). -/
inductive Status where
  /-- 0: no exception. -/
  | ok
  /-- 1: raised by CONSTRUCT only (R181). -/
  | invalidParameter
  /-- 2: raised by ABSORB only (R182). -/
  | outOfRange
  /-- 3: the command is not allowed in the current PHASE (R183). -/
  | invalidState
  deriving DecidableEq, Repr

/-- `status[1:0]` (R86). -/
def Status.code : Status → BitVec 2
  | .ok => 0
  | .invalidParameter => 1
  | .outOfRange => 2
  | .invalidState => 3

/-- "Every command returns exactly one response `(status, payload)`" (R86). -/
structure Response where
  status : Status
  payload : List Byte
  deriving DecidableEq, Repr

/-- What a unit operation returns to the sequencer ("Result out" of R82). -/
inductive UnitResult where
  /-- LOADLANE's `v[63:0]` (R110). -/
  | lane (v : Lane)
  /-- LFSRSTEP's `bit[0]` (R121). -/
  | bit (b : BitVec 1)
  deriving DecidableEq, Repr

/-- What is presented to the block next: an operation as a record in its format, or the reset event,
which "is an event applied by the host or platform between commands" (R210). -/
inductive Request where
  | operation (format : Format) (record : List Byte)
  | reset
  deriving DecidableEq, Repr

/-- Why a step stops with a fault. -/
inductive Fault where
  /-- Raised by ABSORB and FINALIZE when a byte access would fall outside `S[0..199]`. R62 says that no
  access can; it happens only in a state that breaks R40 (CUR or RATE out of their range), which no run
  from reset reaches (log entry 10). SAFE. -/
  | outsideState
  deriving DecidableEq, Repr

/-- Why a step has no meaning. -/
inductive Refusal where
  /-- An instruction of the table without a meaning yet; used in `exec`'s arms only. SAFE. -/
  | notModelled (mnemonic : String)
  /-- Raised by `step` for a record that names no operation (R88: such an encoding has "no meaning, no
  defined result and no defined exception"; log entry 8). SAFE. -/
  | noMeaning (reason : DecodeError)
  deriving DecidableEq, Repr

/-- The complete state of one block (R20), under the spec's names, and after it the model's own fields for
what goes in and out of the block (R19) and for the free values. -/
@[ext]
structure State where
  /-- The sponge state, 200 bytes (R21). -/
  S : Memory
  /-- The rate in bits (R28). -/
  RATE : BitVec 16
  /-- The capacity in bits (R29). -/
  CAPACITY : BitVec 16
  /-- The domain separation suffix (R30). -/
  SUFFIX : BitVec 8
  /-- The digest length in bytes (R31). -/
  OUTLEN : BitVec 32
  /-- The absorb cursor (R32). -/
  CUR : BitVec 8
  /-- The round-constant generator register (R33). -/
  LFSR : BitVec 8
  /-- The lifecycle phase (R34). -/
  PHASE : Phase
  /-- MODEL'S OWN: what will be presented, in order, each after the response to the one before (R19, R219,
  log entry 4). -/
  pending : List Request
  /-- MODEL'S OWN: the responses returned to the host, oldest first (R86). -/
  responses : List Response
  /-- MODEL'S OWN: the results returned by unit operations that were issued on their own, oldest first (R82). -/
  results : List UnitResult
  /-- MODEL'S OWN: how many reset events there have been; the free values are taken at it (log entry 3). -/
  freeIndex : Nat
  deriving DecidableEq, Repr

/-- The machine right after power-on reset: PHASE is UNCONFIGURED (R210) and nothing is pending. The spec
gives no other register a reset value (R39); each is 0 here (DESIGN CHOICE, log entry 2). -/
def State.reset : State where
  S := []
  RATE := 0
  CAPACITY := 0
  SUFFIX := 0
  OUTLEN := 0
  CUR := 0
  LFSR := 0
  PHASE := .unconfigured
  pending := []
  responses := []
  results := []
  freeIndex := 0

end Sys2Proof.Machine
end

