-- ==== Sys2Proof/Machine/Operands.lean ====
section
/-! DEFINITION. Operand forms and derived operands (R83 to R85, R89): lane offsets, rotation, the driver's
byte rate, the slice of the input buffer, the index sequences of the permutation's stages. -/

namespace Sys2Proof.Machine

/-- `rotl64(v, r)` for 0 ≤ r ≤ 63 (R11): left is toward more significant bits (G3). -/
def rotl64 (v : Lane) (r : Nat) : Lane := if r = 0 then v else (v <<< r) ||| (v >>> (64 - r))

/-- The byte offset of lane (x,y) in `S` (R22, R85). -/
def laneOffset (x y : Coord) : Nat := (x.val + 5 * y.val) * 8

/-- `(x + k) mod 5` (R12). -/
def coordPlus (x : Coord) (k : Nat) : Coord := ⟨(x.val + k) % 5, Nat.mod_lt _ (by decide)⟩

/-- The coordinates in the order the pseudocode's loops take them (R13, R14). -/
def coords : List Coord := [0, 1, 2, 3, 4]

/-- The rotation amount of walk index t: `((t+1)(t+2) div 2) mod 64` (R89, R131). -/
def rhoAmount (t : Nat) : Nat := ((t + 1) * (t + 2) / 2) % 64

/-- The second coordinate after (x,y) on the walk of RHOPI: `(2x + 3y) mod 5` (R131). -/
def piRow (x y : Coord) : Coord := ⟨(2 * x.val + 3 * y.val) % 5, Nat.mod_lt _ (by decide)⟩

/-- The mask IOTA XORs for bit index j: `1 << (2^j − 1)` in 64 bits (R89, R134). -/
def iotaMask (j : Nat) : Lane := 1#64 <<< (2 ^ j - 1)

/-- The final padding byte 0x80 (R6, R155). -/
def finalPad : Byte := 0x80

/-- `R = RATE div 8`, the rate in bytes (R7, R89). -/
def rateBytes (s : State) : Nat := s.RATE.toNat / 8

/-- `buf[offset]` to `buf[offset + length − 1]`, in increasing order (R63, R152). -/
def bufferSlice (buf : List Byte) (offset length : Nat) : List Byte := (buf.drop offset).take length

end Sys2Proof.Machine
end

