-- ==== Sys2Proof/Machine/Flags.lean ====
section
/-! DEFINITION. The block has no flags (R26); what stands in their place is the response status, and this
file holds the conditions that decide it (R150 to R155, R180 to R183). Sums are taken as mathematical
integers, never in the operands' width (R12). -/

namespace Sys2Proof.Machine

/-- CONSTRUCT's three operand checks all pass (R150, R181). -/
def parametersLegal (rate capacity : BitVec 16) : Bool :=
  decide (rate.toNat + capacity.toNat = 1600) && decide (rate.toNat % 8 = 0) && decide (8 ≤ rate.toNat)

/-- ABSORB's range check passes: `offset + length ≤ buflen` (R152, R182). -/
def rangeLegal (buf : List Byte) (offset length : Nat) : Bool := decide (offset + length ≤ buf.length)

/-- FINALIZE step 2's condition: the suffix has its top bit set and the cursor is R − 1 (R155). -/
def suffixFillsBlock (s : State) : Bool :=
  decide (s.SUFFIX &&& 0x80#8 ≠ 0#8) && decide (s.CUR.toNat + 1 = rateBytes s)

end Sys2Proof.Machine
end

