-- ==== Sys2Proof/Machine/Ops.lean ====
section
/-! DEFINITION. The named operations the meanings share: one byte of `S` and whole little-endian accesses
(R13, R57), the named updates of the state, the response of a command, raising an exception (R188), the
reset event (R210), and what is fetched next. -/

namespace Sys2Proof.Machine

/-! ## The state memory -/

/-- What an offset with no entry reads as: 0x00 (DESIGN CHOICE, log entry 2: the spec gives `S` no value
after power-on). -/
def Memory.unlisted : Byte := 0

/-- `S[a]` (R13). -/
def Memory.read : Memory → Nat → Byte
  | [], _ => Memory.unlisted
  | (b, v) :: m, a => if b = a then v else Memory.read m a

/-- The list without its entries for `a`. -/
def Memory.remove : Memory → Nat → Memory
  | [], _ => []
  | (b, v) :: m, a => if b = a then Memory.remove m a else (b, v) :: Memory.remove m a

/-- The list with the entry (a, v) put before the first larger offset. -/
def Memory.place : Memory → Nat → Byte → Memory
  | [], a, v => [(a, v)]
  | (b, w) :: m, a, v => if a < b then (a, v) :: (b, w) :: m else (b, w) :: Memory.place m a v

/-- `S[a] <- v` (R13). Writing what an unlisted offset reads as leaves no entry, so that equal memories are
equal lists. -/
def Memory.write (m : Memory) (a : Nat) (v : Byte) : Memory :=
  if v = Memory.unlisted then m.remove a else (m.remove a).place a v

/-- The entries stand in strictly rising order, all above `lo`'s bound, inside `S`, and none is redundant. -/
def Memory.wfFrom : Nat → Memory → Bool
  | _, [] => true
  | lo, (a, v) :: m =>
    decide (lo ≤ a) && decide (a < Config.stateBytes) && decide (v ≠ Memory.unlisted) && Memory.wfFrom (a + 1) m

/-- The canonical form; it also says that nothing outside the 200 bytes is held (R21, R40 I-a). -/
def Memory.wf (m : Memory) : Bool := m.wfFrom 0

/-- `MemRead(a, n)` (R13): the n bytes from `a` as one number, least significant first. -/
def Memory.readN (m : Memory) (a : Nat) : Nat → Nat
  | 0 => 0
  | n + 1 => (m.read a).toNat + 256 * Memory.readN m (a + 1) n

/-- `MemWrite(a, n, v)` (R13). -/
def Memory.writeN (m : Memory) (a : Nat) : Nat → Nat → Memory
  | 0, _ => m
  | n + 1, v => Memory.writeN (m.write a (BitVec.ofNat 8 v)) (a + 1) n (v / 256)

/-- Each of the n bytes from `a` XORed with its byte of v, "independently" (R57, R112). -/
def Memory.xorN (m : Memory) (a : Nat) : Nat → Nat → Memory
  | 0, _ => m
  | n + 1, v => Memory.xorN (m.write a (m.read a ^^^ BitVec.ofNat 8 v)) (a + 1) n (v / 256)

/-- `S[a], …, S[a + n − 1]` in that order (R53, R155 step 5). -/
def Memory.readList (m : Memory) (a : Nat) : Nat → List Byte
  | 0 => []
  | n + 1 => m.read a :: Memory.readList m (a + 1) n

/-! ## Named updates of the state -/

/-- Replace `S`. -/
def State.setS (s : State) (m : Memory) : State := { s with S := m }

/-- Replace `LFSR`. -/
def State.setLFSR (s : State) (l : Byte) : State := { s with LFSR := l }

/-- Replace CUR. -/
def State.setCUR (s : State) (c : Byte) : State := { s with CUR := c }

/-- Replace PHASE. -/
def State.setPHASE (s : State) (p : Phase) : State := { s with PHASE := p }

/-- Write the four parameter registers (R28 to R31). -/
def State.setParameters (s : State) (rate capacity : BitVec 16) (suffix : Byte) (outlen : BitVec 32) : State :=
  { s with RATE := rate, CAPACITY := capacity, SUFFIX := suffix, OUTLEN := outlen }

/-- Replace what is still to be presented. -/
def State.setPending (s : State) (q : List Request) : State := { s with pending := q }

/-- Count a reset event. -/
def State.bumpFree (s : State) : State := { s with freeIndex := s.freeIndex + 1 }

/-- Return one response to the host (R86). -/
def State.respond (s : State) (st : Status) (payload : List Byte) : State :=
  { s with responses := s.responses ++ [⟨st, payload⟩] }

/-- Return a unit operation's result (R82). -/
def State.giveResult (s : State) (r : UnitResult) : State := { s with results := s.results ++ [r] }

/-! ## Outcomes of commands -/

/-- An outcome of the block's own reason types. -/
abbrev StepOutcome := Host.Outcome State Fault Refusal

/-- Taking an exception, `raise E` (R14, R188): the command ends with status E and an empty payload, nothing
of the block is written, nothing is saved, control goes nowhere. There is no return from an exception and
nothing to restore (R189): the next command is judged by the state as it is. -/
def raise (e : Status) (s : State) : StepOutcome := .next (s.respond e [])

/-- `respond OK(payload)` (R14). -/
def respondOk (payload : List Byte) (s : State) : StepOutcome := .next (s.respond .ok payload)

/-- `S[a] <- S[a] XOR v`, one byte (R57). An offset outside `S` does not exist (R62). -/
def xorByte (a : Nat) (v : Byte) (s : State) : Except Fault State :=
  if a < Config.stateBytes then .ok (s.setS (s.S.write a (s.S.read a ^^^ v))) else .error .outsideState

/-! ## Reset -/

/-- `S` after the n-th reset event: 200 free bytes (R39). -/
def freeMemory (n : Nat) : Memory :=
  (List.range Config.stateBytes).foldl (fun m a => m.write a (Config.freeStateByte n a)) []

/-- The reset event (R210): PHASE becomes UNCONFIGURED and every other register and every byte of `S` takes a
free value, which nothing constrains (R39, U3, log entry 3). The interface's fields are the host's and stay. -/
def applyReset (s : State) : State :=
  let n := s.freeIndex
  { s with
    S := freeMemory n
    RATE := Config.freeRate n
    CAPACITY := Config.freeCapacity n
    SUFFIX := Config.freeSuffix n
    OUTLEN := Config.freeOutlen n
    CUR := Config.freeCur n
    LFSR := Config.freeLfsr n
    PHASE := .unconfigured
    freeIndex := n + 1 }

/-! ## What is presented next -/

/-- The request presented next and the state in which it has been taken; none when the host is silent. -/
def nextRequest (s : State) : Option (Request × State) :=
  match s.pending with
  | [] => none
  | r :: rest => some (r, s.setPending rest)

/-- Put a request in front of all that is still to be presented. -/
def State.present (s : State) (r : Request) : State := s.setPending (r :: s.pending)

end Sys2Proof.Machine
end

