-- ==== Sys2Proof/Machine/Generator.lean ====
section
/-! DEFINITION. The round-constant generator: LFSRSTEP (R120 to R124). -/

namespace Sys2Proof.Machine

/-- The seed KECCAKF writes (R122). -/
def lfsrSeed : Byte := 0x01

/-- The bit LFSRSTEP returns: the low bit before the advance (R121). -/
def lfsrBit (r : Byte) : BitVec 1 := r.setWidth 1

/-- The register after one advance: shift left by 1 in 8 bits, XOR 0x71 if the old high bit was set (R121). -/
def lfsrNext (r : Byte) : Byte := if r &&& 0x80#8 ≠ 0#8 then (r <<< 1) ^^^ 0x71#8 else r <<< 1

/-- LFSRSTEP (R121). -/
def execLfsrstep (s : State) : StepOutcome :=
  .next ((s.setLFSR (lfsrNext s.LFSR)).giveResult (.bit (lfsrBit s.LFSR)))

end Sys2Proof.Machine
end

