-- ==== Sys2Proof/Machine/LaneCodec.lean ====
section
/-! DEFINITION. The lane codec: LOADLANE, SAVELANE, XORLANE (R110 to R115). -/

namespace Sys2Proof.Machine

/-- `loadLane(x,y)`: the 64-bit little-endian value at `(x+5y)*8` (R110). -/
def loadLane (m : Memory) (x y : Coord) : Lane := BitVec.ofNat 64 (m.readN (laneOffset x y) 8)

/-- `saveLane(x,y,v)`: the eight bytes of v, least significant first (R111). -/
def saveLane (m : Memory) (x y : Coord) (v : Lane) : Memory := m.writeN (laneOffset x y) 8 v.toNat

/-- `xorLane(x,y,v)`: "XORs each of the 8 bytes independently" (R112). -/
def xorLane (m : Memory) (x y : Coord) (v : Lane) : Memory := m.xorN (laneOffset x y) 8 v.toNat

/-- LOADLANE x, y (R110). -/
def execLoadlane (x y : Coord) (s : State) : StepOutcome := .next (s.giveResult (.lane (loadLane s.S x y)))

/-- SAVELANE x, y, v (R111). -/
def execSavelane (x y : Coord) (v : Lane) (s : State) : StepOutcome := .next (s.setS (saveLane s.S x y v))

/-- XORLANE x, y, v (R112). -/
def execXorlane (x y : Coord) (v : Lane) (s : State) : StepOutcome := .next (s.setS (xorLane s.S x y v))

end Sys2Proof.Machine
end

