-- ==== Sys2Proof/Machine/Permutation.lean ====
section
/-! DEFINITION. The permutation Keccak-f[1600]: THETA, RHOPI, CHI, IOTA, ROUND, KECCAKF (R130 to R139). The
stages are functions of `S`, or of `S` and `LFSR`, alone, which is what R138 says of them. -/

namespace Sys2Proof.Machine

/-- `S` and `LFSR`, all that the permutation reads or writes (R138). -/
abbrev Engine := Memory × Byte

/-! ## THETA -/

/-- `C[x]`: the parity of column x (R130 phase 1). -/
def columnParity (m : Memory) (x : Coord) : Lane :=
  loadLane m x 0 ^^^ loadLane m x 1 ^^^ loadLane m x 2 ^^^ loadLane m x 3 ^^^ loadLane m x 4

/-- `D` of column x: `C[(x+4) mod 5] XOR rotl64(C[(x+1) mod 5], 1)` (R130 phase 2). -/
def thetaEffect (m : Memory) (x : Coord) : Lane :=
  columnParity m (coordPlus x 4) ^^^ rotl64 (columnParity m (coordPlus x 1)) 1

/-- XOR `d` into every lane of column x. -/
def xorColumn (m : Memory) (x : Coord) (d : Lane) : Memory := coords.foldl (fun m' y => xorLane m' x y d) m

/-- θ (R130). Every `D` is computed from the state as it is on entry, never from columns already changed (R216). -/
def theta (m : Memory) : Memory := coords.foldl (fun m' x => xorColumn m' x (thetaEffect m x)) m

/-! ## RHOPI -/

/-- The walk of RHOPI: where it stands, the lane in hand, the state (R131). -/
structure RhoWalk where
  x : Coord
  y : Coord
  hand : Lane
  S : Memory
  deriving DecidableEq, Repr

/-- One iteration: the old value at the destination is read before it is overwritten (R131, R215). -/
def rhoStep (w : RhoWalk) (t : Nat) : RhoWalk :=
  let x' := w.y
  let y' := piRow w.x w.y
  { x := x', y := y', hand := loadLane w.S x' y', S := saveLane w.S x' y' (rotl64 w.hand (rhoAmount t)) }

/-- ρ and π (R131): 24 iterations from lane (1,0). -/
def rhopi (m : Memory) : Memory :=
  ((List.range 24).foldl rhoStep { x := 1, y := 0, hand := loadLane m 1 0, S := m }).S

/-! ## CHI -/

/-- The new lane (x,y) from the row as it is in `m` (R133). -/
def chiLane (m : Memory) (x y : Coord) : Lane :=
  loadLane m x y ^^^ (~~~ loadLane m (coordPlus x 1) y &&& loadLane m (coordPlus x 2) y)

/-- One row: every right-hand side is taken from the row as it was on entry (R133, R214). -/
def chiRow (m : Memory) (y : Coord) : Memory := coords.foldl (fun m' x => saveLane m' x y (chiLane m x y)) m

/-- χ (R133). -/
def chi (m : Memory) : Memory := coords.foldl chiRow m

/-! ## IOTA, ROUND, KECCAKF -/

/-- One j of IOTA: the generator is stepped whatever its bit is (R134, R217). -/
def iotaStep (e : Engine) (j : Nat) : Engine :=
  (if lfsrBit e.2 = 1#1 then xorLane e.1 0 0 (iotaMask j) else e.1, lfsrNext e.2)

/-- ι (R134): j = 0 to 6. -/
def iota (e : Engine) : Engine := (List.range 7).foldl iotaStep e

/-- One round: θ, ρ and π, χ, ι in that order (R136). -/
def keccakRound (e : Engine) : Engine := iota (chi (rhopi (theta e.1)), e.2)

/-- The permutation: the seed, then 24 rounds (R137). -/
def keccakf (m : Memory) : Engine := keccakRound^[24] (m, lfsrSeed)

/-- Put back what the permutation's units write (R138). -/
def State.setEngine (s : State) (e : Engine) : State := { s with S := e.1, LFSR := e.2 }

/-- `call KECCAKF` inside a command (R153, R155). -/
def permute (s : State) : State := s.setEngine (keccakf s.S)

/-- THETA (R130). -/
def execTheta (s : State) : StepOutcome := .next (s.setS (theta s.S))

/-- RHOPI (R131). -/
def execRhopi (s : State) : StepOutcome := .next (s.setS (rhopi s.S))

/-- CHI (R133). -/
def execChi (s : State) : StepOutcome := .next (s.setS (chi s.S))

/-- IOTA (R134). -/
def execIota (s : State) : StepOutcome := .next (s.setEngine (iota (s.S, s.LFSR)))

/-- ROUND (R136). -/
def execRound (s : State) : StepOutcome := .next (s.setEngine (keccakRound (s.S, s.LFSR)))

/-- KECCAKF (R137). -/
def execKeccakf (s : State) : StepOutcome := .next (permute s)

end Sys2Proof.Machine
end

