-- ==== Sys2Proof/Machine/Driver.lean ====
section
/-! DEFINITION. The sponge driver: CONSTRUCT, INITIALIZE, ABSORB, FINALIZE (R150 to R158). Every check stands
before the first state write of its command (R188), the PHASE check first (R187). -/

namespace Sys2Proof.Machine

/-! ## CONSTRUCT -/

/-- The command CONSTRUCT on its operands (R150, R181). -/
def construct (rate capacity : BitVec 16) (suffix : Byte) (outlen : BitVec 32) (s : State) : StepOutcome :=
  if s.PHASE ≠ .unconfigured then raise .invalidState s
  else if parametersLegal rate capacity then
    respondOk [] ((s.setParameters rate capacity suffix outlen).setPHASE .configured)
  else raise .invalidParameter s

/-- CONSTRUCT rate, capacity, suffix, outlen (R150). -/
def execConstruct (rate capacity : BitVec 16) (suffix : Byte) (outlen : BitVec 32) (s : State) : StepOutcome :=
  construct rate capacity suffix outlen s

/-! ## INITIALIZE -/

/-- `S[a] <- 0x00` for a = 0 to 199 (R151). -/
def clearState (m : Memory) : Memory := (List.range Config.stateBytes).foldl (fun m' a => m'.write a 0x00) m

/-- INITIALIZE (R151). -/
def execInitialise (s : State) : StepOutcome :=
  if s.PHASE = .unconfigured then raise .invalidState s
  else respondOk [] (((s.setS (clearState s.S)).setCUR 0).setPHASE .absorbing)

/-! ## ABSORB -/

/-- AbsorbByte(b) (R153): the permutation comes as soon as the block is full. -/
def absorbByte (b : Byte) (s : State) : Except Fault State :=
  match xorByte s.CUR.toNat b s with
  | .error f => .error f
  | .ok s1 =>
    let s2 := s1.setCUR (s1.CUR + 1)
    if s2.CUR.toNat = rateBytes s2 then .ok ((permute s2).setCUR 0) else .ok s2

/-- AbsorbByte on each byte, in order (R152). -/
def absorbBytes : List Byte → State → Except Fault State
  | [], s => .ok s
  | b :: bs, s =>
    match absorbByte b s with
    | .error f => .error f
    | .ok s' => absorbBytes bs s'

/-- The command ABSORB on a buffer, an offset and a length (R152, R182). -/
def absorbCommand (buf : List Byte) (offset length : Nat) (s : State) : StepOutcome :=
  if s.PHASE ≠ .absorbing then raise .invalidState s
  else if rangeLegal buf offset length then
    match absorbBytes (bufferSlice buf offset length) s with
    | .error f => .fault f
    | .ok s' => respondOk [] s'
  else raise .outOfRange s

/-- ABSORB buf, offset, length (R152). -/
def execAbsorb (buf : List Byte) (offset length : BitVec 32) (s : State) : StepOutcome :=
  absorbCommand buf offset.toNat length.toNat s

/-! ## FINALIZE -/

/-- Step 3: `S[R − 1] <- S[R − 1] XOR 0x80` (R155). With R = 0 there is no such byte (C5). -/
def padLastByte (s : State) : Except Fault State :=
  match rateBytes s with
  | 0 => .error .outsideState
  | r + 1 => xorByte r finalPad s

/-- Steps 1 to 4: suffix, the extra permutation if the suffix fills the block, final bit, permutation
(R155, R156, R222). -/
def padAndPermute (s : State) : Except Fault State :=
  match xorByte s.CUR.toNat s.SUFFIX s with
  | .error f => .error f
  | .ok s1 =>
    let s2 := if suffixFillsBlock s1 then permute s1 else s1
    match padLastByte s2 with
    | .error f => .error f
    | .ok s3 => .ok (permute s3)

/-- Step 5: chunks of at most R bytes, a permutation between chunks and none after the last (R155, R157).
`fuel` bounds the number of chunks; `rem` chunks are always enough, since each has at least one byte. -/
def squeeze (r : Nat) : Nat → Nat → State → List Byte × State
  | 0, _, s => ([], s)
  | fuel + 1, rem, s =>
    if rem = 0 then ([], s)
    else
      let chunk := s.S.readList 0 (min rem r)
      let rem' := rem - min rem r
      if rem' = 0 then (chunk, s)
      else
        let rest := squeeze r fuel rem' (permute s)
        (chunk ++ rest.1, rest.2)

/-- FINALIZE (R155). -/
def execFinalize (s : State) : StepOutcome :=
  if s.PHASE ≠ .absorbing then raise .invalidState s
  else
    match padAndPermute s with
    | .error f => .fault f
    | .ok s4 =>
      let out := squeeze (rateBytes s4) s4.OUTLEN.toNat s4.OUTLEN.toNat s4
      respondOk out.1 (out.2.setPHASE .finalized)

end Sys2Proof.Machine
end

