-- ==== Sys2Proof/Machine/Presets.lean ====
section
/-! DEFINITION. The pseudo-commands (R92, R159): "a thin construction of the core with these constants". -/

namespace Sys2Proof.Machine

/-- DIGEST224 (R92, R159). -/
def execDigest224 (s : State) : StepOutcome := construct 1152 448 0x06 28 s

/-- DIGEST256 (R92, R159). -/
def execDigest256 (s : State) : StepOutcome := construct 1088 512 0x06 32 s

/-- DIGEST384 (R92, R159). -/
def execDigest384 (s : State) : StepOutcome := construct 832 768 0x06 48 s

/-- DIGEST512 (R92, R159). -/
def execDigest512 (s : State) : StepOutcome := construct 576 1024 0x06 64 s

/-- ABSORB buf: the whole buffer, from offset 0 (R84, R92). -/
def execAbsorbBuf (buf : List Byte) (s : State) : StepOutcome := absorbCommand buf 0 buf.length s

end Sys2Proof.Machine
end

