-- ==== Sys2Proof/Machine/Dispatch.lean ====
section
/-! DEFINITION. `exec`: one arm per operation of the table. -/

namespace Sys2Proof.Machine

def exec (i : Instr) (s : State) : Host.Outcome State Fault Refusal :=
  match i with
  | .construct rate capacity suffix outlen => Sys2Proof.Machine.execConstruct rate capacity suffix outlen s
  | .initialise => Sys2Proof.Machine.execInitialise s
  | .absorb buf offset length => Sys2Proof.Machine.execAbsorb buf offset length s
  | .finalize => Sys2Proof.Machine.execFinalize s
  | .loadlane x y => Sys2Proof.Machine.execLoadlane x y s
  | .savelane x y v => Sys2Proof.Machine.execSavelane x y v s
  | .xorlane x y v => Sys2Proof.Machine.execXorlane x y v s
  | .lfsrstep => Sys2Proof.Machine.execLfsrstep s
  | .theta => Sys2Proof.Machine.execTheta s
  | .rhopi => Sys2Proof.Machine.execRhopi s
  | .chi => Sys2Proof.Machine.execChi s
  | .iota => Sys2Proof.Machine.execIota s
  | .round => Sys2Proof.Machine.execRound s
  | .keccakf => Sys2Proof.Machine.execKeccakf s
  | .digest224 => Sys2Proof.Machine.execDigest224 s
  | .digest256 => Sys2Proof.Machine.execDigest256 s
  | .digest384 => Sys2Proof.Machine.execDigest384 s
  | .digest512 => Sys2Proof.Machine.execDigest512 s
  | .absorbBuf buf => Sys2Proof.Machine.execAbsorbBuf buf s

end Sys2Proof.Machine
end

