-- ==== Sys2Proof/Machine/Step.lean ====
section
/-! DEFINITION. One step: what is presented next is performed whole, as "one indivisible transition" (R19). -/

namespace Sys2Proof.Machine

/-- One transition of the block (R19, R24). With nothing presented it holds its state (R196). -/
def step (s : State) : Host.Outcome State Fault Refusal :=
  match nextRequest s with
  | none => .next s
  | some (.reset, s') => .next (applyReset s')
  | some (.operation f record, s') =>
    match decode f record with
    | .ok i => exec i s'
    | .error e => .refused (.noMeaning e)

/-- The state in which the operation of an opcode-table word is the one presented next (log entry 6). -/
def State.withFetchWord (s : State) (nbits w : Nat) : State :=
  s.present (.operation (tableFormat nbits w) (tableRecord nbits w))

end Sys2Proof.Machine
end

