-- ==== Sys2Proof/Safety.lean ====
section
/-! DEFINITION. What a safe run is, in the terms the statements use: the invariant of R40, a host that
presents only what it may, and a sequence of operations performed one after another. -/

namespace Sys2Proof.Machine

/-- R40 between commands: (I-a) `S` is 200 bytes, in canonical form; (I-b) a configured block has legal
parameters; (I-c) an absorbing block has its cursor inside the rate portion. -/
abbrev State.Inv (s : State) : Prop :=
  s.S.wf = true ∧
  (s.PHASE ≠ .unconfigured →
    s.RATE.toNat + s.CAPACITY.toNat = 1600 ∧ s.RATE.toNat % 8 = 0 ∧ 8 ≤ s.RATE.toNat) ∧
  (s.PHASE = .absorbing → s.CUR.toNat < rateBytes s)

/-- A request a host can make: a record of format CMD that names a command, or reset. Unit operations are
not issuable by the host (R80). -/
def Request.fromHost : Request → Bool
  | .reset => true
  | .operation .cmd record =>
    match decode .cmd record with
    | .ok _ => true
    | .error _ => false
  | .operation .uop _ => false

/-- Everything still to be presented comes from a host (R219). -/
def State.hostDriven (s : State) : Bool := s.pending.all Request.fromHost

/-- The operations of a list performed in order, each on the state the one before left (R24, R65). -/
def execAll : List Instr → State → StepOutcome
  | [], s => .next s
  | i :: is, s =>
    match exec i s with
    | .next t => execAll is t
    | .fault f => .fault f
    | .refused r => .refused r

end Sys2Proof.Machine
end

