-- ==== Sys2Proof/Certificates/Slice0/Obligations.lean ====
section
/-! DEFINITION. The statements about the model, from the numbered rules of spec/. The block has no program
counter and no flags (R24, R26): where a statement gives the whole next state as `{ s with … }`, every
register, the memory and the interface not named in it are unchanged, which is its frame. Every statement
supposes, as R219 does, that the host presents one command at a time. Where the spec marks a rule as its own inference
("[derived: from …]") or rests it on a decision D<n> of 92_eei_decisions.md, the docstring says so. -/

open Sys2Proof Sys2Proof.Machine

namespace Sys2Proof.Claims

/-! ## Words the statements share, written from the spec and not from the meanings -/

/-- The state after a command that did nothing but answer (R86, R188). -/
def answered (s : State) (e : Status) (payload : List Byte) : State :=
  { s with responses := s.responses ++ [⟨e, payload⟩] }

/-- CONSTRUCT's operand condition (R150): the sum is 1600, the rate a multiple of 8 and at least 8. -/
def legalParameters (rate capacity : BitVec 16) : Prop :=
  rate.toNat + capacity.toNat = 1600 ∧ rate.toNat % 8 = 0 ∧ 8 ≤ rate.toNat

/-- The operation is in the format and has the code of the opcode map (R81, R82). -/
def hasCode (i : Instr) (f : Format) (c : Byte) : Prop := i.format = f ∧ i.code = c

/-- The phase a command leads to when it is carried out; none where R35 has `InvalidState`. -/
def phaseTable : Phase → Instr → Option Phase
  | .unconfigured, .construct _ _ _ _ => some .configured
  | .configured, .initialise => some .absorbing
  | .absorbing, .initialise => some .absorbing
  | .absorbing, .absorb _ _ _ => some .absorbing
  | .absorbing, .finalize => some .finalized
  | .finalized, .initialise => some .absorbing
  | _, _ => none

/-- The operand checks of the two commands that have any fail (R150, R152). -/
def operandsRejected : Instr → Option Status
  | .construct r c _ _ =>
    if r.toNat + c.toNat = 1600 ∧ r.toNat % 8 = 0 ∧ 8 ≤ r.toNat then none else some .invalidParameter
  | .absorb buf off len => if off.toNat + len.toNat ≤ buf.length then none else some .outOfRange
  | _ => none

/-- The exclusive or of the five lanes of column x (R130). -/
def parity (m : Memory) (x : Coord) : Lane :=
  loadLane m x 0 ^^^ loadLane m x 1 ^^^ loadLane m x 2 ^^^ loadLane m x 3 ^^^ loadLane m x 4

/-- A row of the table of R132: source lane, destination lane, rotation. -/
structure WalkRow where
  src : Coord × Coord
  dst : Coord × Coord
  r : Nat
  deriving DecidableEq, Repr

/-- The walk of RHOPI, t = 0 to 11 (R132). -/
def walkFirst : List WalkRow :=
  [⟨(1, 0), (0, 2), 1⟩, ⟨(0, 2), (2, 1), 3⟩, ⟨(2, 1), (1, 2), 6⟩, ⟨(1, 2), (2, 3), 10⟩,
   ⟨(2, 3), (3, 3), 15⟩, ⟨(3, 3), (3, 0), 21⟩, ⟨(3, 0), (0, 1), 28⟩, ⟨(0, 1), (1, 3), 36⟩,
   ⟨(1, 3), (3, 1), 45⟩, ⟨(3, 1), (1, 4), 55⟩, ⟨(1, 4), (4, 4), 2⟩, ⟨(4, 4), (4, 0), 14⟩]

/-- The walk of RHOPI, t = 12 to 23 (R132). -/
def walkSecond : List WalkRow :=
  [⟨(4, 0), (0, 3), 27⟩, ⟨(0, 3), (3, 4), 41⟩, ⟨(3, 4), (4, 3), 56⟩, ⟨(4, 3), (3, 2), 8⟩,
   ⟨(3, 2), (2, 2), 25⟩, ⟨(2, 2), (2, 0), 43⟩, ⟨(2, 0), (0, 4), 62⟩, ⟨(0, 4), (4, 2), 18⟩,
   ⟨(4, 2), (2, 4), 39⟩, ⟨(2, 4), (4, 1), 61⟩, ⟨(4, 1), (1, 1), 20⟩, ⟨(1, 1), (1, 0), 44⟩]

/-- The table of R132. -/
def walkTable : List WalkRow := walkFirst ++ walkSecond

/-- One advance of the generator in value form (R124), on numbers. -/
def advance (l : Byte) : Byte :=
  BitVec.ofNat 8 ((2 * l.toNat) % 256 ^^^ (if 128 ≤ l.toNat then 0x71 else 0))

/-- The bit the generator returns for index j of an IOTA that begins at `l` (R134). -/
def generatorBit (l : Byte) (j : Nat) : Nat := (advance^[j] l).toNat % 2

/-- The constant IOTA XORs: the OR over j of `bit_j << (2^j − 1)` (R134). -/
def roundConstant (l : Byte) : Lane :=
  (List.range 7).foldl (fun c j => c ||| (BitVec.ofNat 64 (generatorBit l j) <<< (2 ^ j - 1))) 0

/-- A row of the table of R135: LFSR on entry, the seven bits, the constant. -/
structure ConstantRow where
  lfsrIn : Byte
  bits : List Nat
  rc : Lane
  deriving DecidableEq, Repr

/-- The table of R135, rounds 0 to 11. -/
def constantsFirst : List ConstantRow :=
  [⟨0x01, [1, 0, 0, 0, 0, 0, 0], 0x0000000000000001⟩, ⟨0x80, [0, 1, 0, 1, 1, 0, 0], 0x0000000000008082⟩,
   ⟨0xD8, [0, 1, 1, 1, 1, 0, 1], 0x800000000000808A⟩, ⟨0x1A, [0, 0, 0, 0, 1, 1, 1], 0x8000000080008000⟩,
   ⟨0xDF, [1, 1, 1, 1, 1, 0, 0], 0x000000000000808B⟩, ⟨0x09, [1, 0, 0, 0, 0, 1, 0], 0x0000000080000001⟩,
   ⟨0x35, [1, 0, 0, 1, 1, 1, 1], 0x8000000080008081⟩, ⟨0x4F, [1, 0, 1, 0, 1, 0, 1], 0x8000000000008009⟩,
   ⟨0xCA, [0, 1, 1, 1, 0, 0, 0], 0x000000000000008A⟩, ⟨0x70, [0, 0, 1, 1, 0, 0, 0], 0x0000000000000088⟩,
   ⟨0x41, [1, 0, 1, 0, 1, 1, 0], 0x0000000080008009⟩, ⟨0xEC, [0, 1, 1, 0, 0, 1, 0], 0x000000008000000A⟩]

/-- The table of R135, rounds 12 to 23. -/
def constantsSecond : List ConstantRow :=
  [⟨0xD5, [1, 1, 1, 1, 1, 1, 0], 0x000000008000808B⟩, ⟨0xCD, [1, 1, 1, 1, 0, 0, 1], 0x800000000000008B⟩,
   ⟨0x63, [1, 0, 1, 1, 1, 0, 1], 0x8000000000008089⟩, ⟨0xAB, [1, 1, 0, 0, 1, 0, 1], 0x8000000000008003⟩,
   ⟨0xAA, [0, 1, 0, 0, 1, 0, 1], 0x8000000000008002⟩, ⟨0x2A, [0, 0, 0, 1, 0, 0, 1], 0x8000000000000080⟩,
   ⟨0xF2, [0, 1, 1, 0, 1, 0, 0], 0x000000000000800A⟩, ⟨0xE8, [0, 1, 1, 0, 0, 1, 1], 0x800000008000000A⟩,
   ⟨0x37, [1, 0, 0, 1, 1, 1, 1], 0x8000000080008081⟩, ⟨0x3E, [0, 0, 0, 1, 1, 0, 1], 0x8000000000008080⟩,
   ⟨0x0B, [1, 0, 0, 0, 0, 1, 0], 0x0000000080000001⟩, ⟨0x44, [0, 0, 1, 0, 1, 1, 1], 0x8000000080008008⟩]

/-- The table of R135. -/
def constantsTable : List ConstantRow := constantsFirst ++ constantsSecond

/-- The generator's value when the IOTA after that of round i begins: the next row's, and 0x8E after round 23 (R135). -/
def entryAfter (i : Nat) : Byte := ((constantsTable[i + 1]?).map ConstantRow.lfsrIn).getD 0x8E

/-! ## The permutation on the 25 lanes, written from the rules without memory, walk or generator -/

/-- The 25 lanes as a value. -/
abbrev Lanes := Coord → Coord → Lane

/-- θ on the lanes (R130). -/
def laneTheta (A : Lanes) : Lanes :=
  let C : Coord → Lane := fun x => A x 0 ^^^ A x 1 ^^^ A x 2 ^^^ A x 3 ^^^ A x 4
  fun x y => A x y ^^^ (C (x + 4) ^^^ (C (x + 1)).rotateLeft 1)

/-- ρ and π on the lanes, "all 24 assignments taken simultaneously" (R131, R132). -/
def laneRhoPi (A : Lanes) : Lanes := fun x y =>
  match walkTable.find? (fun w => w.dst == (x, y)) with
  | some w => (A w.src.1 w.src.2).rotateLeft w.r
  | none => A x y

/-- χ on the lanes (R133). -/
def laneChi (A : Lanes) : Lanes := fun x y => A x y ^^^ (~~~ A (x + 1) y &&& A (x + 2) y)

/-- ι with a constant on the lanes (R134). -/
def laneIota (rc : Lane) (A : Lanes) : Lanes := fun x y => if x = 0 ∧ y = 0 then A x y ^^^ rc else A x y

/-- 24 rounds with the constants of R135. -/
def laneKeccak (A : Lanes) : Lanes :=
  constantsTable.foldl (fun B row => laneIota row.rc (laneChi (laneRhoPi (laneTheta B)))) A

/-! ## The sponge on whole blocks -/

/-- The bytes of a block XORed into `S[0]`, `S[1]`, … (R54, R153). -/
def xorBlock (m : Memory) (block : List Byte) : Memory :=
  block.zipIdx.foldl (fun m' e => m'.write e.2 (m'.read e.2 ^^^ e.1)) m

/-- `S` after i whole blocks of r bytes of the message have been absorbed into the zero state (R153). -/
def afterBlocks (r : Nat) (msg : List Byte) : Nat → Memory
  | 0 => []
  | i + 1 => (keccakf (xorBlock (afterBlocks r msg i) ((msg.drop (i * r)).take r))).1

/-- `m` is the block FINALIZE permutes last: the padding cases (a) to (d) of R156 on the state `s`. -/
def paddedBlock (s : State) (m : Memory) : Prop :=
  let r := s.RATE.toNat / 8
  let c := s.CUR.toNat
  if c + 1 = r ∧ s.SUFFIX.getLsbD 7 = true then
    ∃ m1, m1.wf = true ∧ m.wf = true ∧
      (∀ a, m1.read a = if a = r - 1 then s.S.read a ^^^ s.SUFFIX else s.S.read a) ∧
      (∀ a, m.read a = if a = r - 1 then (keccakf m1).1.read a ^^^ 0x80 else (keccakf m1).1.read a)
  else if c + 1 = r then
    m.wf = true ∧ ∀ a, m.read a = if a = r - 1 then s.S.read a ^^^ (s.SUFFIX ^^^ 0x80) else s.S.read a
  else
    m.wf = true ∧ ∀ a, m.read a =
      if a = c then s.S.read a ^^^ s.SUFFIX else if a = r - 1 then s.S.read a ^^^ 0x80 else s.S.read a

/-- A whole computation (R160): INITIALIZE, the chunks of a message, FINALIZE. -/
def computation (chunks : List (List Byte)) : List Instr :=
  [.initialise] ++ chunks.map Instr.absorbBuf ++ [.finalize]

end Sys2Proof.Claims

open Sys2Proof.Claims

/-! ## Encoding -/

/-- R81, R82, R92: the record of a well-formed operation decodes to it (a pseudo-command to its expansion). -/
def Obligations.EncodedOperationsDecode : Prop :=
  ∀ i : Instr, i.wellFormed = true → decode i.format (encode i) = .ok i.expand

/-- R80, R87: a record that decodes is the encoding of what it decodes to, so each record has one meaning. -/
def Obligations.DecodedRecordsAreEncodings : Prop :=
  ∀ (f : Format) (record : List Byte) (i : Instr), decode f record = .ok i →
    i.format = f ∧ i.wellFormed = true ∧ i.expand = i ∧ encode i = record

/-- Records written out from R81 to R85 and from the programs P1, P2 of 95_test_vectors.md, in the model's byte
layout (log entry 5). -/
def Obligations.WrittenRecordsDecode : Prop :=
  decode .cmd [0x00, 0x40, 0x04, 0x00, 0x02, 0x06, 0x20, 0x00, 0x00, 0x00] = .ok (.construct 1088 512 0x06 32) ∧
  decode .cmd [0x01] = .ok .initialise ∧
  decode .cmd [0x02, 0x03, 0, 0, 0, 0x00, 0, 0, 0, 0x03, 0, 0, 0, 0x61, 0x62, 0x63] =
    .ok (.absorb [0x61, 0x62, 0x63] 0 3) ∧
  decode .cmd [0x03] = .ok .finalize ∧
  decode .uop [0x00, 0x04, 0x02] = .ok (.loadlane 4 2) ∧
  decode .uop [0x01, 0x00, 0x02, 0x88, 0x77, 0x66, 0x55, 0x44, 0x33, 0x22, 0x11] =
    .ok (.savelane 0 2 0x1122334455667788) ∧
  decode .uop [0x02, 0x04, 0x00, 0xFF, 0x00, 0x00, 0x00, 0x00, 0x00, 0x00, 0x80] =
    .ok (.xorlane 4 0 0x80000000000000FF) ∧
  decode .uop [0x03] = .ok .lfsrstep ∧ decode .uop [0x04] = .ok .theta ∧ decode .uop [0x05] = .ok .rhopi ∧
  decode .uop [0x06] = .ok .chi ∧ decode .uop [0x07] = .ok .iota ∧ decode .uop [0x08] = .ok .round ∧
  decode .uop [0x09] = .ok .keccakf

/-- R88: no CMD code is reserved; `uop` 10 to 15 and the coordinates 5, 6, 7 of every codec operation are refused,
whatever else the record holds, and such a record stops the step. -/
def Obligations.ReservedEncodingsRefused : Prop :=
  (∀ c : Byte, c.toNat < 4 → ∃ operands i, decode .cmd (c :: operands) = .ok i) ∧
  (∀ (c : Byte) (operands : List Byte), 10 ≤ c.toNat → c.toNat ≤ 15 →
    decode .uop (c :: operands) = .error .reservedUop) ∧
  (∀ (c x y : Byte) (rest : List Byte), c.toNat ≤ 2 →
    (5 ≤ x.toNat ∧ x.toNat ≤ 7) ∨ (5 ≤ y.toNat ∧ y.toNat ≤ 7) →
    ∃ e, decode .uop (c :: x :: y :: rest) = .error e) ∧
  (∀ (s : State) (f : Format) (record : List Byte) (rest : List Request) (e : DecodeError),
    s.pending = .operation f record :: rest → decode f record = .error e →
    step s = .refused (.noMeaning e))

/-! ## The step -/

/-- R19, R24, R196: a step takes the request in front and performs the operation its record decodes to, on the state
in which the request has been taken; with nothing presented the block holds its state. -/
def Obligations.StepRunsTheDecodedOperation : Prop :=
  (∀ (s : State) (f : Format) (record : List Byte) (rest : List Request) (i : Instr),
    s.pending = .operation f record :: rest → decode f record = .ok i →
    step s = exec i { s with pending := rest }) ∧
  (∀ s : State, s.pending = [] → step s = .next s)

/-- R210: a reset event leads to UNCONFIGURED whatever the block was doing, and is the only step that leads to
UNCONFIGURED from another phase. That the reset event leaves the interface's lists (the clauses on `pending`, `responses`
and `results`) is the model's choice (log entry 3), as is that `S` is held in canonical form (log entry 1). What the other
registers and `S` hold after it is free (log entry 3): nothing is said of them but that form. -/
def Obligations.OnlyResetUnconfigures : Prop :=
  (∀ (s : State) (rest : List Request), s.pending = .reset :: rest →
    ∃ t, step s = .next t ∧ t.PHASE = .unconfigured ∧ t.pending = rest ∧ t.responses = s.responses ∧
      t.results = s.results ∧ t.S.wf = true) ∧
  (∀ s t : State, step s = .next t → t.PHASE = .unconfigured →
    s.PHASE = .unconfigured ∨ ∃ rest, s.pending = .reset :: rest) ∧
  State.reset.PHASE = .unconfigured

/-- R40 at reset; the registers' values there are the model's choice (log entry 2) and the statement does not name one. -/
def Obligations.ResetMeetsTheInvariant : Prop := State.reset.Inv

/-- R40 (I-a, I-b, I-c): every step that goes on keeps the invariant, from every state that has it. -/
def Obligations.StepKeepsTheInvariant : Prop :=
  ∀ s t : State, s.Inv → step s = .next t → t.Inv

/-- R7, R40 (I-d): a configured block's parameters change at a reset event only. -/
def Obligations.ParametersStayFixed : Prop :=
  ∀ s t : State, step s = .next t → s.PHASE ≠ .unconfigured → (∀ rest, s.pending ≠ .reset :: rest) →
    t.RATE = s.RATE ∧ t.CAPACITY = s.CAPACITY ∧ t.SUFFIX = s.SUFFIX ∧ t.OUTLEN = s.OUTLEN

/-- R62, which the spec derives from R40 ("[derived: from 10_state.md rule R40]"): no access to `S` falls outside it. The lane codec's offsets and the driver's are inside, and so no step from a
state with the invariant of R40 faults; the only other stop is a record that names no operation. -/
def Obligations.NoAccessFallsOutsideState : Prop :=
  (∀ x y : Coord, (x.val + 5 * y.val) * 8 + 7 ≤ 199) ∧
  (∀ s : State, s.Inv → s.PHASE = .absorbing →
    s.CUR.toNat ≤ s.RATE.toNat / 8 - 1 ∧ s.RATE.toNat / 8 - 1 ≤ 199 ∧ s.RATE.toNat / 8 ≤ 200) ∧
  (∀ s : State, s.Inv → ∀ f, step s ≠ .fault f) ∧
  (∀ (s : State) (r : Refusal), step s = .refused r →
    ∃ f record rest e, s.pending = .operation f record :: rest ∧ decode f record = .error e ∧ r = .noMeaning e)

/-- R58, R160, R228: a block driven by a host only never stops: each step gives a next state, still host driven, and
still with the invariant. -/
def Obligations.HostDrivenBlockNeverStops : Prop :=
  ∀ s : State, s.Inv → s.hostDriven = true → ∃ t, step s = .next t ∧ t.Inv ∧ t.hostDriven = true

/-! ## Responses, exceptions, phases -/

/-- R35, R187: each command in each phase: the PHASE check comes first and answers `InvalidState`, then the operand
check answers its own status, and only then is the command carried out and the phase moves as the table says; a
command that is turned away changes nothing but the responses. No operation returns the block to UNCONFIGURED. Both rules
rest on the spec's decisions D6 to D9 and D13, which R35 and R187 cite. -/
def Obligations.PhaseTableDecidesCommands : Prop :=
  (∀ (i : Instr) (s : State), i.format = .cmd → i.wellFormed = true → s.Inv →
    match phaseTable s.PHASE i.expand with
    | none => exec i s = .next (answered s .invalidState [])
    | some p =>
      match operandsRejected i.expand with
      | some e => exec i s = .next (answered s e [])
      | none => ∃ t payload, exec i s = .next t ∧ t.responses = s.responses ++ [⟨.ok, payload⟩] ∧ t.PHASE = p) ∧
  (∀ (i : Instr) (s t : State), exec i s = .next t → t.PHASE = .unconfigured → s.PHASE = .unconfigured)

/-- R86: every command answers exactly once, with the status codes given there; the payload is empty but for a FINALIZE
that answers `OK`, where it has OUTLEN bytes; a unit operation answers the host nothing. -/
def Obligations.EveryCommandAnswersOnce : Prop :=
  (∀ (i : Instr) (s : State), i.format = .cmd → s.Inv →
    ∃ t r, exec i s = .next t ∧ t.responses = s.responses ++ [r] ∧ t.results = s.results ∧
      (if i = .finalize ∧ r.status = .ok then r.payload.length = s.OUTLEN.toNat else r.payload = [])) ∧
  (∀ (i : Instr) (s t : State), i.format = .uop → exec i s = .next t → t.responses = s.responses) ∧
  Status.ok.code = 0 ∧ Status.invalidParameter.code = 1 ∧ Status.outOfRange.code = 2 ∧ Status.invalidState.code = 3

/-- R188: an exception writes no state: a command that answers another status than `OK` leaves everything but the list
of responses as it was, and its payload is empty. -/
def Obligations.ExceptionsWriteNothing : Prop :=
  ∀ (i : Instr) (s t : State) (r : Response), exec i s = .next t → t.responses = s.responses ++ [r] →
    r.status ≠ .ok → r.payload = [] ∧ t = { s with responses := s.responses ++ [r] }

/-- R189 (the spec's decision D16): errors are not latched. No operation reads the responses already given, so an operation after a failed
command does what it would have done had that command not been presented. -/
def Obligations.ErrorsAreNotLatched : Prop :=
  ∀ (i j : Instr) (s t u : State) (r : Response), exec i s = .next t → t.responses = s.responses ++ [r] →
    r.status ≠ .ok → exec j s = .next u →
    ∃ u', exec j t = .next u' ∧ u' = { u with responses := u'.responses } ∧
      ∃ new, u.responses = s.responses ++ new ∧ u'.responses = s.responses ++ [r] ++ new

/-! ## The driver -/

/-- R150: CONSTRUCT, every case (the PHASE check is the spec's decision D8, `rate < 8` its D10). -/
def Obligations.ConstructConfigures : Prop :=
  (∀ r c x o, hasCode (.construct r c x o) .cmd 0) ∧
  (∀ (rate capacity : BitVec 16) (suffix : Byte) (outlen : BitVec 32) (s : State),
     (s.PHASE = .unconfigured → legalParameters rate capacity →
       exec (.construct rate capacity suffix outlen) s =
         .next { s with RATE := rate, CAPACITY := capacity, SUFFIX := suffix, OUTLEN := outlen,
                        PHASE := .configured, responses := s.responses ++ [⟨.ok, []⟩] }) ∧
     (s.PHASE = .unconfigured → ¬ legalParameters rate capacity →
       exec (.construct rate capacity suffix outlen) s = .next (answered s .invalidParameter [])) ∧
     (s.PHASE ≠ .unconfigured →
       exec (.construct rate capacity suffix outlen) s = .next (answered s .invalidState [])))

/-- R92, R159: the four presets configure an unconfigured block with their constants, and each pseudo-command is its
expansion in every state. -/
def Obligations.PresetsConfigure : Prop :=
  (∀ s : State, s.PHASE = .unconfigured →
    exec .digest224 s = .next { s with RATE := 1152, CAPACITY := 448, SUFFIX := 0x06, OUTLEN := 28,
                                       PHASE := .configured, responses := s.responses ++ [⟨.ok, []⟩] } ∧
    exec .digest256 s = .next { s with RATE := 1088, CAPACITY := 512, SUFFIX := 0x06, OUTLEN := 32,
                                       PHASE := .configured, responses := s.responses ++ [⟨.ok, []⟩] } ∧
    exec .digest384 s = .next { s with RATE := 832, CAPACITY := 768, SUFFIX := 0x06, OUTLEN := 48,
                                       PHASE := .configured, responses := s.responses ++ [⟨.ok, []⟩] } ∧
    exec .digest512 s = .next { s with RATE := 576, CAPACITY := 1024, SUFFIX := 0x06, OUTLEN := 64,
                                       PHASE := .configured, responses := s.responses ++ [⟨.ok, []⟩] }) ∧
  (∀ s : State,
    exec .digest224 s = exec (.construct 1152 448 0x06 28) s ∧
    exec .digest256 s = exec (.construct 1088 512 0x06 32) s ∧
    exec .digest384 s = exec (.construct 832 768 0x06 48) s ∧
    exec .digest512 s = exec (.construct 576 1024 0x06 64) s) ∧
  (∀ (buf : List Byte) (s : State), buf.length < 2 ^ 32 →
    exec (.absorbBuf buf) s = exec (.absorb buf 0 (BitVec.ofNat 32 buf.length)) s)

/-- R151: INITIALIZE, in every phase (the refusal in UNCONFIGURED is the spec's decision D9). -/
def Obligations.InitializeClears : Prop :=
  hasCode .initialise .cmd 1 ∧
  (∀ s : State, s.PHASE ≠ .unconfigured →
    ∃ t, exec .initialise s = .next t ∧
      t = { s with S := t.S, CUR := 0, PHASE := .absorbing, responses := s.responses ++ [⟨.ok, []⟩] } ∧
      (∀ a < 200, t.S.read a = 0x00) ∧ (s.S.wf = true → t.S = [])) ∧
  (∀ s : State, s.PHASE = .unconfigured → exec .initialise s = .next (answered s .invalidState []))

/-- R152, R182: ABSORB in every form that is turned away, and the empty range, which does nothing but answer `OK`. -/
def Obligations.AbsorbTurnedAwayOrEmpty : Prop :=
  ∀ (buf : List Byte) (off len : BitVec 32) (s : State),
    (s.PHASE ≠ .absorbing →
      exec (.absorb buf off len) s = .next (answered s .invalidState []) ∧
      exec (.absorbBuf buf) s = .next (answered s .invalidState [])) ∧
    (s.PHASE = .absorbing → buf.length < off.toNat + len.toNat →
      exec (.absorb buf off len) s = .next (answered s .outOfRange [])) ∧
    (s.PHASE = .absorbing → off.toNat ≤ buf.length →
      exec (.absorb buf off 0) s = .next (answered s .ok []))

/-- R152: ABSORB of any legal range is carried out whole; the cursor ends at `(c + length) mod R`, and only `S`, CUR and
LFSR change. The pseudo-command does the same for its whole buffer. -/
def Obligations.AbsorbCompletes : Prop :=
  ∀ (buf : List Byte) (s : State), s.Inv → s.PHASE = .absorbing →
    (∀ off len : BitVec 32, off.toNat + len.toNat ≤ buf.length →
      ∃ t, exec (.absorb buf off len) s = .next t ∧
        t = { s with S := t.S, LFSR := t.LFSR, responses := s.responses ++ [⟨.ok, []⟩],
                     CUR := BitVec.ofNat 8 ((s.CUR.toNat + len.toNat) % (s.RATE.toNat / 8)) }) ∧
    (∃ t, exec (.absorbBuf buf) s = .next t ∧
      t = { s with S := t.S, LFSR := t.LFSR, responses := s.responses ++ [⟨.ok, []⟩],
                   CUR := BitVec.ofNat 8 ((s.CUR.toNat + buf.length) % (s.RATE.toNat / 8)) })

/-- R153, and R61, which the spec derives from R152, R155, R157: a range that does not fill the block is XORed into `S` from the cursor on, byte by byte; every other byte
of `S`, the capacity portion among them, and LFSR are unchanged: there is no permutation. -/
def Obligations.AbsorbWithinABlock : Prop :=
  ∀ (buf : List Byte) (off len : BitVec 32) (s : State), s.Inv → s.PHASE = .absorbing →
    off.toNat + len.toNat ≤ buf.length → s.CUR.toNat + len.toNat < s.RATE.toNat / 8 →
    ∃ t, exec (.absorb buf off len) s = .next t ∧
      t = { s with S := t.S, CUR := BitVec.ofNat 8 (s.CUR.toNat + len.toNat),
                   responses := s.responses ++ [⟨.ok, []⟩] } ∧
      ∀ a, t.S.read a =
        if s.CUR.toNat ≤ a ∧ a < s.CUR.toNat + len.toNat
          then s.S.read a ^^^ buf.getD (off.toNat + (a - s.CUR.toNat)) 0 else s.S.read a

/-- R153: a range that exactly fills the block is XORed in and permuted at once, and the cursor is 0 again. -/
def Obligations.AbsorbFillsABlock : Prop :=
  ∀ (buf : List Byte) (off len : BitVec 32) (s : State), s.Inv → s.PHASE = .absorbing →
    off.toNat + len.toNat ≤ buf.length → s.CUR.toNat + len.toNat = s.RATE.toNat / 8 →
    ∃ m, m.wf = true ∧
      (∀ a, m.read a =
        if s.CUR.toNat ≤ a ∧ a < s.CUR.toNat + len.toNat
          then s.S.read a ^^^ buf.getD (off.toNat + (a - s.CUR.toNat)) 0 else s.S.read a) ∧
      exec (.absorb buf off len) s =
        .next { s with S := (keccakf m).1, LFSR := 0x8E, CUR := 0, responses := s.responses ++ [⟨.ok, []⟩] }

/-- R154: chunking has no effect, for any number of chunks, and `offset` only selects which bytes are absorbed. -/
def Obligations.ChunkingHasNoEffect : Prop :=
  (∀ (chunks : List (List Byte)) (s : State), s.Inv → s.PHASE = .absorbing →
    ∃ t t', execAll (chunks.map Instr.absorbBuf) s = .next t ∧ exec (.absorbBuf chunks.flatten) s = .next t' ∧
      t.S = t'.S ∧ t.CUR = t'.CUR ∧ t.LFSR = t'.LFSR ∧ t.PHASE = t'.PHASE ∧
      t = { t' with responses := s.responses ++ List.replicate chunks.length ⟨.ok, []⟩ }) ∧
  (∀ (buf : List Byte) (off len : BitVec 32) (s : State), off.toNat + len.toNat ≤ buf.length →
    exec (.absorb buf off len) s = exec (.absorb ((buf.drop off.toNat).take len.toNat) 0 len) s)

/-- R54, R153, and R40 (I-e), which the spec derives from R150 to R152: absorbing a message of n bytes after INITIALIZE is absorbing it block by block: the
permutation has been applied exactly `n div R` times, the bytes left over are XORed in, and CUR is `n mod R`. -/
def Obligations.MessagesAreAbsorbedBlockwise : Prop :=
  ∀ (msg : List Byte) (s : State), s.Inv → s.PHASE ≠ .unconfigured →
    execAll [.initialise, .absorbBuf msg] s =
      .next { s with
        S := xorBlock (afterBlocks (s.RATE.toNat / 8) msg (msg.length / (s.RATE.toNat / 8)))
               (msg.drop (msg.length / (s.RATE.toNat / 8) * (s.RATE.toNat / 8)))
        CUR := BitVec.ofNat 8 (msg.length % (s.RATE.toNat / 8))
        LFSR := if msg.length / (s.RATE.toNat / 8) = 0 then s.LFSR else 0x8E
        PHASE := .absorbing
        responses := s.responses ++ [⟨.ok, []⟩, ⟨.ok, []⟩] }

/-- R155 (its PHASE check is the spec's decision D6, D7), in the form of R156 and R157, which the spec derives from it:
FINALIZE pads as the cases of R156 say, permutes, and returns OUTLEN bytes, byte k being byte
`k mod R` of Z(k div R), with `ceil(OUTLEN / R) − 1` permutations between the blocks; CUR is not written. -/
def Obligations.FinalizeReturnsTheDigest : Prop :=
  hasCode .finalize .cmd 3 ∧
  (∀ s : State, s.Inv → s.PHASE = .absorbing →
    ∃ m out, paddedBlock s m ∧ out.length = s.OUTLEN.toNat ∧
      (∀ k < s.OUTLEN.toNat, out[k]? =
        some (((fun z => (keccakf z).1)^[k / (s.RATE.toNat / 8)] (keccakf m).1).read (k % (s.RATE.toNat / 8)))) ∧
      exec .finalize s =
        .next { s with
          S := (fun z => (keccakf z).1)^[(s.OUTLEN.toNat + s.RATE.toNat / 8 - 1) / (s.RATE.toNat / 8) - 1] (keccakf m).1
          LFSR := 0x8E
          PHASE := .finalized
          responses := s.responses ++ [⟨.ok, out⟩] }) ∧
  (∀ s : State, s.PHASE ≠ .absorbing → exec .finalize s = .next (answered s .invalidState []))

/-- R161 (a) to (c): the digest of a computation depends on the parameters and on the concatenation of the absorbed
bytes only: not on chunking, empty chunks, earlier computations, or what any other register holds. -/
def Obligations.DigestDependsOnMessageAndParametersOnly : Prop :=
  ∀ (s s' : State) (chunks chunks' : List (List Byte)), s.Inv → s'.Inv →
    s.PHASE ≠ .unconfigured → s'.PHASE ≠ .unconfigured →
    s.RATE = s'.RATE → s.SUFFIX = s'.SUFFIX → s.OUTLEN = s'.OUTLEN → chunks.flatten = chunks'.flatten →
    ∃ t t' digest, execAll (computation chunks) s = .next t ∧ execAll (computation chunks') s' = .next t' ∧
      t.responses = s.responses ++ List.replicate (chunks.length + 1) ⟨.ok, []⟩ ++ [⟨.ok, digest⟩] ∧
      t'.responses = s'.responses ++ List.replicate (chunks'.length + 1) ⟨.ok, []⟩ ++ [⟨.ok, digest⟩]

/-- R25, which the spec derives from R121, R134, R152, R155: no value read from `S` influences control: from two states that differ in `S` only, every operation ends the
same way, with the same registers, statuses and payload lengths. -/
def Obligations.ContentsOfStateSteerNothing : Prop :=
  ∀ (i : Instr) (s : State) (m : Memory), s.Inv → m.wf = true →
    ∃ t t', exec i s = .next t ∧ exec i { s with S := m } = .next t' ∧
      t.CUR = t'.CUR ∧ t.PHASE = t'.PHASE ∧ t.LFSR = t'.LFSR ∧
      t.RATE = t'.RATE ∧ t.CAPACITY = t'.CAPACITY ∧ t.SUFFIX = t'.SUFFIX ∧ t.OUTLEN = t'.OUTLEN ∧
      t.responses.map (fun r => (r.status, r.payload.length)) = t'.responses.map (fun r => (r.status, r.payload.length))

/-! ## The lane codec -/

/-- R110, and in its bit clauses R52, which the spec derives from R51: LOADLANE returns the little-endian value of its eight bytes and changes nothing; bit b of it is bit
`b mod 8` of byte `b div 8`, and every bit of every byte of `S` is the lane bit R52 says. -/
def Obligations.LoadlaneReturnsTheLane : Prop :=
  (∀ x y, hasCode (.loadlane x y) .uop 0) ∧
  (∀ (x y : Coord) (s : State), ∃ v : Lane,
    exec (.loadlane x y) s = .next { s with results := s.results ++ [.lane v] } ∧
    v.toNat =
      (s.S.read ((x.val + 5 * y.val) * 8)).toNat + (s.S.read ((x.val + 5 * y.val) * 8 + 1)).toNat * 2 ^ 8 +
      (s.S.read ((x.val + 5 * y.val) * 8 + 2)).toNat * 2 ^ 16 + (s.S.read ((x.val + 5 * y.val) * 8 + 3)).toNat * 2 ^ 24 +
      (s.S.read ((x.val + 5 * y.val) * 8 + 4)).toNat * 2 ^ 32 + (s.S.read ((x.val + 5 * y.val) * 8 + 5)).toNat * 2 ^ 40 +
      (s.S.read ((x.val + 5 * y.val) * 8 + 6)).toNat * 2 ^ 48 + (s.S.read ((x.val + 5 * y.val) * 8 + 7)).toNat * 2 ^ 56 ∧
    ∀ b < 64, v.getLsbD b = (s.S.read ((x.val + 5 * y.val) * 8 + b / 8)).getLsbD (b % 8)) ∧
  (∀ (m : Memory) (x y : Coord) (a c : Nat), a / 8 = x.val + 5 * y.val → c < 8 →
    (m.read a).getLsbD c = (loadLane m x y).getLsbD (8 * (a % 8) + c))

/-- R111: SAVELANE writes its eight bytes, least significant first, and no other byte; LOADLANE then returns v, and saving
the value a lane holds changes nothing: two corner cases of R111 which the spec derives from R110. -/
def Obligations.SavelaneWritesTheLane : Prop :=
  (∀ x y v, hasCode (.savelane x y v) .uop 1) ∧
  (∀ (x y : Coord) (v : Lane) (s : State),
    ∃ t, exec (.savelane x y v) s = .next t ∧ t = { s with S := t.S } ∧
      (∀ k < 8, t.S.read ((x.val + 5 * y.val) * 8 + k) = (v >>> (8 * k)).setWidth 8) ∧
      (∀ a, a < (x.val + 5 * y.val) * 8 ∨ (x.val + 5 * y.val) * 8 + 8 ≤ a → t.S.read a = s.S.read a) ∧
      exec (.loadlane x y) t = .next { t with results := t.results ++ [.lane v] }) ∧
  (∀ (x y : Coord) (s : State), s.S.wf = true → exec (.savelane x y (loadLane s.S x y)) s = .next s)

/-- R112: XORLANE XORs each of its eight bytes with its byte of v and no other byte; v = 0 changes nothing and the same
XORLANE twice restores the state. -/
def Obligations.XorlaneXorsEachByte : Prop :=
  (∀ x y v, hasCode (.xorlane x y v) .uop 2) ∧
  (∀ (x y : Coord) (v : Lane) (s : State),
    ∃ t, exec (.xorlane x y v) s = .next t ∧ t = { s with S := t.S } ∧
      (∀ k < 8, t.S.read ((x.val + 5 * y.val) * 8 + k) =
        s.S.read ((x.val + 5 * y.val) * 8 + k) ^^^ (v >>> (8 * k)).setWidth 8) ∧
      (∀ a, a < (x.val + 5 * y.val) * 8 ∨ (x.val + 5 * y.val) * 8 + 8 ≤ a → t.S.read a = s.S.read a)) ∧
  (∀ (x y : Coord) (v : Lane) (s : State), s.S.wf = true →
    exec (.xorlane x y 0) s = .next s ∧ execAll [.xorlane x y v, .xorlane x y v] s = .next s)

/-- R113, which the spec derives from R110 to R112: in the lane view LOADLANE returns `L[x,y]`, SAVELANE assigns it and XORLANE XORs it, no other lane changing,
and XORLANE has the effect of SAVELANE of the XOR. -/
def Obligations.LaneCodecActsOnLanes : Prop :=
  ∀ (x y : Coord) (v : Lane) (s : State),
    exec (.loadlane x y) s = .next { s with results := s.results ++ [.lane (loadLane s.S x y)] } ∧
    (∃ t, exec (.savelane x y v) s = .next t ∧
      ∀ x' y', loadLane t.S x' y' = if x' = x ∧ y' = y then v else loadLane s.S x' y') ∧
    (∃ t, exec (.xorlane x y v) s = .next t ∧
      ∀ x' y', loadLane t.S x' y' = if x' = x ∧ y' = y then loadLane s.S x y ^^^ v else loadLane s.S x' y') ∧
    exec (.xorlane x y v) s = exec (.savelane x y (loadLane s.S x y ^^^ v)) s

/-- R23, which the spec derives from R22: a byte write to `S` changes its eight bits of one lane, no other bit of any lane and no other byte; a lane write
changes exactly its eight bytes. -/
def Obligations.ByteAndLaneViewsAreOneStorage : Prop :=
  (∀ (m : Memory) (a : Nat) (v : Byte), a < 200 →
    (∀ (x y : Coord) (b : Nat), b < 64 →
      (loadLane (m.write a v) x y).getLsbD b =
        if x.val + 5 * y.val = a / 8 ∧ b / 8 = a % 8 then v.getLsbD (b % 8) else (loadLane m x y).getLsbD b) ∧
    (∀ a', (m.write a v).read a' = if a' = a then v else m.read a')) ∧
  (∀ (m : Memory) (x y : Coord) (v : Lane) (a : Nat),
    (saveLane m x y v).read a =
      if a / 8 = x.val + 5 * y.val then (v >>> (8 * (a % 8))).setWidth 8 else m.read a)

/-! ## The generator -/

/-- R121: LFSRSTEP returns the low bit of the register before the advance and advances it. -/
def Obligations.LfsrstepAdvances : Prop :=
  hasCode .lfsrstep .uop 3 ∧
  (∀ s : State, exec .lfsrstep s =
     .next { s with
       LFSR := BitVec.ofNat 8 ((2 * s.LFSR.toNat) % 256 ^^^ (if 128 ≤ s.LFSR.toNat then 0x71 else 0))
       results := s.results ++ [.bit (BitVec.ofNat 1 (s.LFSR.toNat % 2))] })

/-- R123, which the spec derives from R121 and R122: the sequence from the seed: its first 25 values and 24 bits, its period 255, that it never holds 0, and its
value after 168 steps. -/
def Obligations.GeneratorSequence : Prop :=
  ∀ (n : Nat) (s : State), s.LFSR = 0x01 →
    ∃ t, execAll (List.replicate n .lfsrstep) s = .next t ∧
      t = { s with LFSR := t.LFSR, results := t.results } ∧
      (t.LFSR = 0x01 ↔ n % 255 = 0) ∧ t.LFSR ≠ 0x00 ∧ (n = 168 → t.LFSR = 0x8E) ∧
      (∀ v, ([0x01, 0x02, 0x04, 0x08, 0x10, 0x20, 0x40, 0x80, 0x71, 0xE2, 0xB5, 0x1B, 0x36, 0x6C, 0xD8, 0xC1, 0xF3,
        0x97, 0x5F, 0xBE, 0x0D, 0x1A, 0x34, 0x68, 0xD0] : List Byte)[n]? = some v → t.LFSR = v) ∧
      (n = 24 → t.results = s.results ++
        ([1, 0, 0, 0, 0, 0, 0, 0, 1, 0, 1, 1, 0, 0, 0, 1, 1, 1, 1, 0, 1, 0, 0, 0] : List (BitVec 1)).map .bit)

/-! ## The permutation -/

/-- R130: THETA on every lane, the parities taken from the state on entry. -/
def Obligations.ThetaMixesColumns : Prop :=
  hasCode .theta .uop 4 ∧
  (∀ s : State, ∃ t, exec .theta s = .next t ∧ t = { s with S := t.S } ∧
     (∀ x y : Coord, loadLane t.S x y =
       loadLane s.S x y ^^^ (parity s.S (x + 4) ^^^ (parity s.S (x + 1)).rotateLeft 1)) ∧
     (∀ a, 200 ≤ a → t.S.read a = s.S.read a))

/-- R131, by the table of R132, which the spec derives from it: RHOPI is the 24 assignments of the table, all sources taken from the entry state, with lane (0,0)
untouched; the table's rows are those of the walk and name each other lane once as a destination. -/
def Obligations.RhopiMovesAndRotates : Prop :=
  hasCode .rhopi .uop 5 ∧
  (∀ s : State, ∃ t, exec .rhopi s = .next t ∧ t = { s with S := t.S } ∧
    (∀ w ∈ walkTable, loadLane t.S w.dst.1 w.dst.2 = (loadLane s.S w.src.1 w.src.2).rotateLeft w.r) ∧
    loadLane t.S 0 0 = loadLane s.S 0 0 ∧
    (∀ a, 200 ≤ a → t.S.read a = s.S.read a)) ∧
  (∀ t < 24, ∃ w, walkTable[t]? = some w ∧ w.r = ((t + 1) * (t + 2) / 2) % 64 ∧
    w.dst.1 = w.src.2 ∧ w.dst.2.val = (2 * w.src.1.val + 3 * w.src.2.val) % 5 ∧
    (walkTable[(t + 1) % 24]?).map WalkRow.src = some w.dst) ∧
  (∀ p : Coord × Coord, p ≠ (0, 0) ↔ p ∈ walkTable.map WalkRow.dst) ∧ (walkTable.map WalkRow.dst).Nodup

/-- R133: CHI on every lane, every right-hand side taken from the row on entry. -/
def Obligations.ChiUsesTheRowOnEntry : Prop :=
  hasCode .chi .uop 6 ∧
  (∀ s : State, ∃ t, exec .chi s = .next t ∧ t = { s with S := t.S } ∧
     (∀ x y : Coord, loadLane t.S x y =
       loadLane s.S x y ^^^ (~~~ loadLane s.S (x + 1) y &&& loadLane s.S (x + 2) y)) ∧
     (∀ a, 200 ≤ a → t.S.read a = s.S.read a))

/-- R134: IOTA XORs the seven generator bits' constant into lane (0,0), advances LFSR by seven steps whatever the bits
are, and touches no other byte. -/
def Obligations.IotaXorsTheRoundConstant : Prop :=
  hasCode .iota .uop 7 ∧
  (∀ s : State, ∃ t, exec .iota s = .next t ∧ t = { s with S := t.S, LFSR := advance^[7] s.LFSR } ∧
     loadLane t.S 0 0 = loadLane s.S 0 0 ^^^ roundConstant s.LFSR ∧
     (∀ a, 8 ≤ a → t.S.read a = s.S.read a))

/-- R135, which the spec derives from R121, R122, R134: for each of the 24 rounds, 7i LFSRSTEPs from the seed bring the
generator to the round's value on entry and the next seven return the round's bits; and IOTA in any state with that value
XORs the round's constant into lane (0,0), touches no other byte, and leaves the next round's value, 0x8E after the last. -/
def Obligations.RoundConstantTable : Prop :=
  ∀ i < 24, ∃ row, constantsTable[i]? = some row ∧
    (∀ s : State, s.LFSR = 0x01 →
      ∃ t u, execAll (List.replicate (7 * i) .lfsrstep) s = .next t ∧ t.LFSR = row.lfsrIn ∧
        execAll (List.replicate 7 .lfsrstep) t = .next u ∧ u.LFSR = entryAfter i ∧
        u.results = t.results ++ row.bits.map (fun b => .bit (BitVec.ofNat 1 b))) ∧
    (∀ s : State, s.LFSR = row.lfsrIn →
      ∃ t, exec .iota s = .next t ∧ t = { s with S := t.S, LFSR := entryAfter i } ∧
        loadLane t.S 0 0 = loadLane s.S 0 0 ^^^ row.rc ∧ (∀ a, 8 ≤ a → t.S.read a = s.S.read a))

/-- R136: ROUND is THETA, RHOPI, CHI, IOTA in that order, and always completes. -/
def Obligations.RoundIsFourStages : Prop :=
  hasCode .round .uop 8 ∧
  (∀ s : State, exec .round s = execAll [.theta, .rhopi, .chi, .iota] s ∧
     ∃ t, exec .round s = .next t ∧ t = { s with S := t.S, LFSR := t.LFSR })

/-- R137: KECCAKF is the seed and then 24 times ROUND; it always completes, leaves LFSR = 0x8E, writes nothing but `S`
and LFSR, and what it makes of `S` depends on `S` alone. No command record names it. -/
def Obligations.KeccakfIsSeedAndRounds : Prop :=
  hasCode .keccakf .uop 9 ∧
  (∀ s : State, exec .keccakf s = execAll (List.replicate 24 .round) { s with LFSR := 0x01 } ∧
    ∃ t, exec .keccakf s = .next t ∧ t = { s with S := t.S, LFSR := 0x8E }) ∧
  (∀ s s' t t' : State, s.S = s'.S → exec .keccakf s = .next t → exec .keccakf s' = .next t' → t.S = t'.S) ∧
  (∀ record : List Byte, decode .cmd record ≠ .ok .keccakf)

/-- R130 to R137: KECCAKF on the bytes of `S` is Keccak-f[1600] on its 25 lanes: 24 rounds of θ, ρ and π by the table, χ,
and ι with the 24 constants, for every state. -/
def Obligations.KeccakfRefinesTheLanePermutation : Prop :=
  ∀ s : State, ∃ t, exec .keccakf s = .next t ∧ t = { s with S := t.S, LFSR := 0x8E } ∧
    ∀ x y : Coord, loadLane t.S x y = laneKeccak (fun x' y' => loadLane s.S x' y') x y

/-- R138, which the spec derives from R130 to R137: the unit operations read and write `S` and LFSR only (and return their result): from two states that agree on
those, whatever CUR, PHASE and the parameters are, they leave the same `S` and LFSR and the same results, and every
other register as it was. -/
def Obligations.UnitOperationsIgnoreTheDriver : Prop :=
  ∀ (i : Instr) (s s' : State), i.format = .uop → s.S = s'.S → s.LFSR = s'.LFSR →
    ∃ t t' new, exec i s = .next t ∧ exec i s' = .next t' ∧ t.S = t'.S ∧ t.LFSR = t'.LFSR ∧
      t = { s with S := t.S, LFSR := t.LFSR, results := s.results ++ new } ∧
      t' = { s' with S := t'.S, LFSR := t'.LFSR, results := s'.results ++ new }
end

