-- ==== Sys2Proof/Laws/Memory.lean ====
section
/-! SUPPORT. The laws of the state memory: read after write, the canonical form and that every operation
keeps it, and that canonical memories with the same bytes are equal. -/

namespace Sys2Proof.Machine

/-! ## Read after write -/

@[simp] theorem Memory.read_nil (a : Nat) : Memory.read [] a = Memory.unlisted := rfl

theorem Memory.read_cons (b : Nat) (v : Byte) (m : Memory) (a : Nat) :
    Memory.read ((b, v) :: m) a = if b = a then v else Memory.read m a := rfl

theorem Memory.read_remove (m : Memory) (a a' : Nat) :
    (m.remove a).read a' = if a = a' then Memory.unlisted else m.read a' := by
  induction m with
  | nil => simp [Memory.remove]
  | cons e m ih =>
    obtain ⟨b, v⟩ := e
    by_cases hb : b = a
    · rw [Memory.remove, if_pos hb, ih, Memory.read_cons, hb]
      split <;> rfl
    · by_cases h : b = a'
      · subst h
        simp [Memory.remove, Memory.read_cons, hb, Ne.symm hb]
      · simp [Memory.remove, Memory.read_cons, hb, h, ih]

/-- No entry of the list is for `a`. -/
def Memory.lacks (m : Memory) (a : Nat) : Prop := ∀ e ∈ m, e.1 ≠ a

theorem Memory.remove_lacks (m : Memory) (a : Nat) : (m.remove a).lacks a := by
  induction m with
  | nil => intro e he; cases he
  | cons e m ih =>
    obtain ⟨b, v⟩ := e
    by_cases hb : b = a
    · simpa [Memory.remove, hb] using ih
    · intro e he
      rw [Memory.remove, if_neg hb, List.mem_cons] at he
      rcases he with rfl | he
      · exact hb
      · exact ih e he

theorem Memory.read_place {m : Memory} {a : Nat} (h : m.lacks a) (v : Byte) (a' : Nat) :
    (m.place a v).read a' = if a = a' then v else m.read a' := by
  induction m with
  | nil => simp [Memory.place, Memory.read_cons]
  | cons e m ih =>
    obtain ⟨b, w⟩ := e
    have hb : b ≠ a := h (b, w) (by simp)
    have hm : Memory.lacks m a := fun e he => h e (List.mem_cons_of_mem _ he)
    by_cases hab : a < b
    · simp [Memory.place, hab, Memory.read_cons]
    · by_cases h' : b = a'
      · subst h'
        simp [Memory.place, hab, Memory.read_cons, Ne.symm hb]
      · simp [Memory.place, hab, Memory.read_cons, h', ih hm]

/-- R59: "a read returns the last value written", and a write has no effect beyond the byte written. -/
theorem Memory.read_write (m : Memory) (a : Nat) (v : Byte) (a' : Nat) :
    (m.write a v).read a' = if a = a' then v else m.read a' := by
  unfold Memory.write
  split
  · next h => rw [Memory.read_remove, h]
  · rw [Memory.read_place (Memory.remove_lacks m a), Memory.read_remove]
    split <;> rfl

@[simp] theorem Memory.read_write_same (m : Memory) (a : Nat) (v : Byte) : (m.write a v).read a = v := by
  simp [Memory.read_write]

theorem Memory.read_write_other (m : Memory) {a a' : Nat} (h : a ≠ a') (v : Byte) :
    (m.write a v).read a' = m.read a' := by
  simp [Memory.read_write, h]

theorem Memory.read_writeN (m : Memory) (a n v b : Nat) :
    (m.writeN a n v).read b =
      if a ≤ b ∧ b < a + n then BitVec.ofNat 8 (v / 256 ^ (b - a)) else m.read b := by
  induction n generalizing m a v with
  | zero => simp [Memory.writeN, show ¬ (a ≤ b ∧ b < a) by omega]
  | succ n ih =>
    rw [Memory.writeN, ih, Memory.read_write]
    by_cases hab : a = b
    · subst hab
      simp [show ¬ (a + 1 ≤ a) by omega]
    · by_cases h : a + 1 ≤ b ∧ b < a + 1 + n
      · rw [if_pos h, if_pos (by omega), Nat.div_div_eq_div_mul, ← pow_succ',
          show b - (a + 1) + 1 = b - a by omega]
      · rw [if_neg h, if_neg hab, if_neg (by omega)]

theorem Memory.read_xorN (m : Memory) (a n v b : Nat) :
    (m.xorN a n v).read b =
      if a ≤ b ∧ b < a + n then m.read b ^^^ BitVec.ofNat 8 (v / 256 ^ (b - a)) else m.read b := by
  induction n generalizing m a v with
  | zero => simp [Memory.xorN, show ¬ (a ≤ b ∧ b < a) by omega]
  | succ n ih =>
    rw [Memory.xorN, ih, Memory.read_write]
    by_cases hab : a = b
    · subst hab
      simp [show ¬ (a + 1 ≤ a) by omega]
    · rw [if_neg hab]
      by_cases h : a + 1 ≤ b ∧ b < a + 1 + n
      · rw [if_pos h, if_pos (by omega), Nat.div_div_eq_div_mul, ← pow_succ',
          show b - (a + 1) + 1 = b - a by omega]
      · rw [if_neg h, if_neg (by omega)]

/-! ## The canonical form -/

theorem Memory.wfFrom_cons (lo a : Nat) (v : Byte) (m : Memory) :
    Memory.wfFrom lo ((a, v) :: m) = true ↔
      lo ≤ a ∧ a < Config.stateBytes ∧ v ≠ Memory.unlisted ∧ Memory.wfFrom (a + 1) m = true := by
  simp [Memory.wfFrom, and_assoc]

theorem Memory.wfFrom_mono {lo lo' : Nat} {m : Memory} (h : lo' ≤ lo) (w : m.wfFrom lo = true) :
    m.wfFrom lo' = true := by
  cases m with
  | nil => rfl
  | cons e m =>
    rw [Memory.wfFrom_cons] at w ⊢
    exact ⟨by omega, w.2⟩

theorem Memory.wfFrom_remove {lo : Nat} {m : Memory} (w : m.wfFrom lo = true) (a : Nat) :
    (m.remove a).wfFrom lo = true := by
  induction m generalizing lo with
  | nil => rfl
  | cons e m ih =>
    obtain ⟨b, v⟩ := e
    rw [Memory.wfFrom_cons] at w
    unfold Memory.remove
    split
    · exact Memory.wfFrom_mono (by omega) (ih w.2.2.2)
    · rw [Memory.wfFrom_cons]
      exact ⟨w.1, w.2.1, w.2.2.1, ih w.2.2.2⟩

theorem Memory.wfFrom_place {lo a : Nat} {m : Memory} {v : Byte} (w : m.wfFrom lo = true) (hlo : lo ≤ a)
    (ha : a < Config.stateBytes) (hv : v ≠ Memory.unlisted) (hm : m.lacks a) :
    (m.place a v).wfFrom lo = true := by
  induction m generalizing lo with
  | nil => simp [Memory.place, Memory.wfFrom, hlo, ha, hv]
  | cons e m ih =>
    obtain ⟨b, u⟩ := e
    have hb : b ≠ a := hm (b, u) (by simp)
    have hm' : Memory.lacks m a := fun e he => hm e (List.mem_cons_of_mem _ he)
    rw [Memory.wfFrom_cons] at w
    unfold Memory.place
    split
    · next h =>
      simp only [Memory.wfFrom_cons]
      exact ⟨hlo, ha, hv, by omega, w.2⟩
    · rw [Memory.wfFrom_cons]
      exact ⟨w.1, w.2.1, w.2.2.1, ih w.2.2.2 (by omega) hm'⟩

/-- A write inside `S` keeps the canonical form. -/
theorem Memory.wf_write {m : Memory} (w : m.wf = true) {a : Nat} (ha : a < Config.stateBytes) (v : Byte) :
    (m.write a v).wf = true := by
  unfold Memory.write
  split
  · exact Memory.wfFrom_remove w a
  · next hv => exact Memory.wfFrom_place (Memory.wfFrom_remove w a) (Nat.zero_le _) ha hv (Memory.remove_lacks m a)

theorem Memory.wf_writeN {m : Memory} (w : m.wf = true) {a n : Nat} (ha : a + n ≤ Config.stateBytes) (v : Nat) :
    (m.writeN a n v).wf = true := by
  induction n generalizing m a v with
  | zero => exact w
  | succ n ih => exact ih (Memory.wf_write w (by omega) _) (by omega) _

theorem Memory.wf_xorN {m : Memory} (w : m.wf = true) {a n : Nat} (ha : a + n ≤ Config.stateBytes) (v : Nat) :
    (m.xorN a n v).wf = true := by
  induction n generalizing m a v with
  | zero => exact w
  | succ n ih => exact ih (Memory.wf_write w (by omega) _) (by omega) _

theorem Memory.read_below {lo a : Nat} {m : Memory} (w : m.wfFrom lo = true) (h : a < lo) :
    m.read a = Memory.unlisted := by
  induction m generalizing lo with
  | nil => rfl
  | cons e m ih =>
    obtain ⟨b, v⟩ := e
    rw [Memory.wfFrom_cons] at w
    rw [Memory.read_cons, if_neg (by omega)]
    exact ih w.2.2.2 (by omega)

theorem Memory.ext_from {lo : Nat} {m m' : Memory} (w : m.wfFrom lo = true) (w' : m'.wfFrom lo = true)
    (h : ∀ a, m.read a = m'.read a) : m = m' := by
  induction m generalizing lo m' with
  | nil =>
    cases m' with
    | nil => rfl
    | cons e m' =>
      obtain ⟨b, v⟩ := e
      rw [Memory.wfFrom_cons] at w'
      have := h b
      rw [Memory.read_cons, if_pos rfl, Memory.read_nil] at this
      exact absurd this.symm w'.2.2.1
  | cons e m ih =>
    obtain ⟨b, v⟩ := e
    rw [Memory.wfFrom_cons] at w
    cases m' with
    | nil =>
      have := h b
      rw [Memory.read_cons, if_pos rfl, Memory.read_nil] at this
      exact absurd this w.2.2.1
    | cons e' m' =>
      obtain ⟨b', v'⟩ := e'
      rw [Memory.wfFrom_cons] at w'
      have hb : b = b' := by
        rcases Nat.lt_trichotomy b b' with hlt | heq | hgt
        · have := h b
          rw [Memory.read_cons, if_pos rfl, Memory.read_cons, if_neg (by omega),
            Memory.read_below w'.2.2.2 (by omega)] at this
          exact absurd this w.2.2.1
        · exact heq
        · have := h b'
          rw [Memory.read_cons, if_neg (by omega), Memory.read_cons, if_pos rfl,
            Memory.read_below w.2.2.2 (by omega)] at this
          exact absurd this.symm w'.2.2.1
      subst hb
      have hv : v = v' := by simpa [Memory.read_cons] using h b
      subst hv
      refine congrArg _ (ih w.2.2.2 w'.2.2.2 fun a => ?_)
      by_cases hab : b = a
      · rw [Memory.read_below w.2.2.2 (by omega), Memory.read_below w'.2.2.2 (by omega)]
      · simpa [Memory.read_cons, hab] using h a

/-- Canonical memories with the same bytes are the same data. -/
theorem Memory.ext_of_wf {m m' : Memory} (w : m.wf = true) (w' : m'.wf = true)
    (h : ∀ a, m.read a = m'.read a) : m = m' := Memory.ext_from w w' h

theorem Memory.read_outside_from {lo : Nat} {m : Memory} (w : m.wfFrom lo = true) {a : Nat}
    (ha : Config.stateBytes ≤ a) : m.read a = Memory.unlisted := by
  induction m generalizing lo with
  | nil => rfl
  | cons e m ih =>
    obtain ⟨b, v⟩ := e
    rw [Memory.wfFrom_cons] at w
    rw [Memory.read_cons, if_neg (by omega)]
    exact ih w.2.2.2

theorem Memory.read_outside {m : Memory} (w : m.wf = true) {a : Nat} (ha : Config.stateBytes ≤ a) :
    m.read a = Memory.unlisted := Memory.read_outside_from w ha

/-! ## Whole little-endian accesses -/

/-- Bit i of `MemRead(a, n)` is bit `i mod 8` of byte `i div 8` (R52). -/
theorem Memory.testBit_readN (m : Memory) (a n i : Nat) :
    (m.readN a n).testBit i = (decide (i < 8 * n) && (m.read (a + i / 8)).getLsbD (i % 8)) := by
  induction n generalizing a i with
  | zero => simp [Memory.readN]
  | succ n ih =>
    have hlt : (m.read a).toNat < 2 ^ 8 := (m.read a).isLt
    rw [Memory.readN, show 256 = 2 ^ 8 by rfl, Nat.add_comm, Nat.testBit_two_pow_mul_add _ hlt]
    by_cases hi : i < 8
    · rw [if_pos hi, show i / 8 = 0 by omega, show i % 8 = i by omega, Nat.add_zero]
      simp [BitVec.getLsbD, show i < 8 * (n + 1) by omega]
    · rw [if_neg hi, ih, show a + 1 + (i - 8) / 8 = a + i / 8 by omega, show (i - 8) % 8 = i % 8 by omega]
      congr 1
      simp only [decide_eq_decide]
      omega

theorem Memory.readList_length (m : Memory) (a n : Nat) : (m.readList a n).length = n := by
  induction n generalizing a with
  | zero => rfl
  | succ n ih => simp [Memory.readList, ih]

theorem Memory.readList_getElem? (m : Memory) (a n k : Nat) (h : k < n) :
    (m.readList a n)[k]? = some (m.read (a + k)) := by
  induction n generalizing a k with
  | zero => omega
  | succ n ih =>
    cases k with
    | zero => rfl
    | succ k =>
      rw [Memory.readList, List.getElem?_cons_succ, ih (a + 1) k (by omega)]
      congr 2
      omega

/-! ## Filling all of `S` -/

theorem Memory.wf_foldl_write {α : Type} (l : List α) (at' : α → Nat) (val : α → Byte)
    (h : ∀ x ∈ l, at' x < Config.stateBytes) {m : Memory} (w : m.wf = true) :
    (l.foldl (fun m' x => m'.write (at' x) (val x)) m).wf = true := by
  induction l generalizing m with
  | nil => exact w
  | cons x l ih =>
    exact ih (fun y hy => h y (List.mem_cons_of_mem _ hy)) (Memory.wf_write w (h x (by simp)) _)

theorem Memory.read_foldl_write (l : List Nat) (val : Nat → Byte) (m : Memory) (a : Nat) :
    (l.foldl (fun m' x => m'.write x (val x)) m).read a = if a ∈ l then val a else m.read a := by
  induction l generalizing m with
  | nil => simp
  | cons x l ih =>
    rw [List.foldl_cons, ih, Memory.read_write]
    by_cases hl : a ∈ l
    · simp [hl]
    · by_cases hx : x = a
      · subst hx; simp [hl]
      · simp [hl, hx, Ne.symm hx]

end Sys2Proof.Machine
end

