-- ==== Sys2Proof/Laws/Lane.lean ====
section
/-! SUPPORT. The lane view of `S` (R22, R23, R52, R113): what a lane write or XOR does to every lane and to
every byte, and that the lane codec keeps the canonical form. -/

namespace Sys2Proof.Machine

theorem laneOffset_lt (x y : Coord) : laneOffset x y + 8 ≤ Config.stateBytes := by
  have := x.isLt
  have := y.isLt
  simp only [laneOffset, Config.stateBytes]
  omega

theorem laneOffset_inj {x y x' y' : Coord} (h : laneOffset x y = laneOffset x' y') : x = x' ∧ y = y' := by
  have := x.isLt
  have := x'.isLt
  simp only [laneOffset] at h
  constructor <;> apply Fin.ext <;> omega

/-- Two different lanes share no byte (R22: "without gap or overlap"). -/
theorem laneOffset_apart {x y x' y' : Coord} (h : ¬ (x = x' ∧ y = y')) :
    laneOffset x y + 8 ≤ laneOffset x' y' ∨ laneOffset x' y' + 8 ≤ laneOffset x y := by
  have hne : laneOffset x y ≠ laneOffset x' y' := fun e => h (laneOffset_inj e)
  unfold laneOffset at hne ⊢
  omega

/-- R52: bit i of a lane is bit `i mod 8` of byte `i div 8` of its eight bytes. -/
theorem loadLane_getLsbD (m : Memory) (x y : Coord) (i : Nat) :
    (loadLane m x y).getLsbD i =
      (decide (i < 64) && (m.read (laneOffset x y + i / 8)).getLsbD (i % 8)) := by
  rw [loadLane, BitVec.getLsbD_ofNat, Memory.testBit_readN]
  by_cases h : i < 64 <;> simp [h]

/-- A lane depends on its eight bytes only. -/
theorem loadLane_congr {m m' : Memory} {x y : Coord}
    (h : ∀ k < 8, m.read (laneOffset x y + k) = m'.read (laneOffset x y + k)) :
    loadLane m x y = loadLane m' x y := by
  apply BitVec.eq_of_getLsbD_eq
  intro i hi
  rw [loadLane_getLsbD, loadLane_getLsbD, h (i / 8) (by omega)]

theorem read_saveLane (m : Memory) (x y : Coord) (v : Lane) (b : Nat) :
    (saveLane m x y v).read b =
      if laneOffset x y ≤ b ∧ b < laneOffset x y + 8 then
        BitVec.ofNat 8 (v.toNat / 256 ^ (b - laneOffset x y)) else m.read b :=
  Memory.read_writeN m _ _ _ b

theorem read_xorLane (m : Memory) (x y : Coord) (v : Lane) (b : Nat) :
    (xorLane m x y v).read b =
      if laneOffset x y ≤ b ∧ b < laneOffset x y + 8 then
        m.read b ^^^ BitVec.ofNat 8 (v.toNat / 256 ^ (b - laneOffset x y)) else m.read b :=
  Memory.read_xorN m _ _ _ b

/-- Bit c of byte k of a number is its bit `8k + c`. -/
theorem byteOf_getLsbD (n k c : Nat) (hc : c < 8) :
    (BitVec.ofNat 8 (n / 256 ^ k)).getLsbD c = n.testBit (8 * k + c) := by
  rw [BitVec.getLsbD_ofNat, show 256 = 2 ^ 8 by rfl, ← pow_mul, Nat.testBit_div_two_pow]
  simp [hc, Nat.add_comm]

/-- R111, R113: SAVELANE is the lane assignment. -/
theorem loadLane_saveLane (m : Memory) (x y x' y' : Coord) (v : Lane) :
    loadLane (saveLane m x y v) x' y' = if x = x' ∧ y = y' then v else loadLane m x' y' := by
  split
  · next h =>
    obtain ⟨rfl, rfl⟩ := h
    apply BitVec.eq_of_getLsbD_eq
    intro i hi
    rw [loadLane_getLsbD, read_saveLane, if_pos (by omega), Nat.add_sub_cancel_left,
      byteOf_getLsbD _ _ _ (Nat.mod_lt _ (by decide)), Nat.div_add_mod]
    simp [hi, BitVec.getLsbD]
  · next h =>
    have ha := laneOffset_apart h
    apply loadLane_congr
    intro k hk
    rw [read_saveLane, if_neg (by omega)]

/-- R112, R113: XORLANE is the lane XOR. -/
theorem loadLane_xorLane (m : Memory) (x y x' y' : Coord) (v : Lane) :
    loadLane (xorLane m x y v) x' y' =
      if x = x' ∧ y = y' then loadLane m x y ^^^ v else loadLane m x' y' := by
  split
  · next h =>
    obtain ⟨rfl, rfl⟩ := h
    apply BitVec.eq_of_getLsbD_eq
    intro i hi
    rw [loadLane_getLsbD, read_xorLane, if_pos (by omega), Nat.add_sub_cancel_left, BitVec.getLsbD_xor,
      byteOf_getLsbD _ _ _ (Nat.mod_lt _ (by decide)), Nat.div_add_mod, BitVec.getLsbD_xor,
      loadLane_getLsbD]
    simp [hi, BitVec.getLsbD]
  · next h =>
    have ha := laneOffset_apart h
    apply loadLane_congr
    intro k hk
    rw [read_xorLane, if_neg (by omega)]

/-- Canonical memories with the same 25 lanes are the same data (R22, R23). -/
theorem Memory.ext_of_lanes {m m' : Memory} (w : m.wf = true) (w' : m'.wf = true)
    (h : ∀ x y, loadLane m x y = loadLane m' x y) : m = m' := by
  refine Memory.ext_of_wf w w' fun a => ?_
  by_cases ha : a < 200
  · have hl := h ⟨a / 8 % 5, Nat.mod_lt _ (by decide)⟩ ⟨a / 40, by omega⟩
    have ho : laneOffset ⟨a / 8 % 5, Nat.mod_lt _ (by decide)⟩ ⟨a / 40, by omega⟩ = 8 * (a / 8) := by
      simp only [laneOffset]
      omega
    apply BitVec.eq_of_getLsbD_eq
    intro c hc
    have hb := congrArg (fun v => v.getLsbD (8 * (a % 8) + c)) hl
    simp only [loadLane_getLsbD, ho] at hb
    rw [show 8 * (a / 8) + (8 * (a % 8) + c) / 8 = a by omega,
      show (8 * (a % 8) + c) % 8 = c by omega] at hb
    simpa [show 8 * (a % 8) + c < 64 by omega] using hb
  · rw [Memory.read_outside w (by simpa [Config.stateBytes] using ha),
      Memory.read_outside w' (by simpa [Config.stateBytes] using ha)]

theorem wf_saveLane {m : Memory} (w : m.wf = true) (x y : Coord) (v : Lane) : (saveLane m x y v).wf = true :=
  Memory.wf_writeN w (laneOffset_lt x y) _

theorem wf_xorLane {m : Memory} (w : m.wf = true) (x y : Coord) (v : Lane) : (xorLane m x y v).wf = true :=
  Memory.wf_xorN w (laneOffset_lt x y) _

/-- `rotl64` is the library's rotation for every amount below 64 (R11). -/
theorem rotl64_eq_rotateLeft (v : Lane) {r : Nat} (h : r < 64) : rotl64 v r = v.rotateLeft r := by
  unfold rotl64
  split
  · next h0 =>
    subst h0
    rw [BitVec.rotateLeft_def]
    apply BitVec.eq_of_getLsbD_eq
    simp
  · rw [BitVec.rotateLeft_def, Nat.mod_eq_of_lt h]

end Sys2Proof.Machine
end

