-- ==== Sys2Proof/Laws/Permutation.lean ====
section
/-! SUPPORT. The permutation's stages keep the canonical form of `S`; the walk of RHOPI. -/

namespace Sys2Proof.Machine

/-- A fold keeps what every one of its steps keeps. -/
theorem foldl_keeps {α β : Type} (P : β → Prop) (f : β → α → β) (hf : ∀ b a, P b → P (f b a)) :
    ∀ (l : List α) (b : β), P b → P (l.foldl f b)
  | [], _, h => h
  | a :: l, b, h => foldl_keeps P f hf l (f b a) (hf b a h)

/-- An iteration keeps what every one of its rounds keeps. -/
theorem iterate_keeps {β : Type} (P : β → Prop) (f : β → β) (hf : ∀ b, P b → P (f b)) :
    ∀ (n : Nat) (b : β), P b → P (f^[n] b)
  | 0, _, h => h
  | n + 1, b, h => iterate_keeps P f hf n (f b) (hf b h)

theorem wf_xorColumn {m : Memory} (w : m.wf = true) (x : Coord) (d : Lane) : (xorColumn m x d).wf = true :=
  foldl_keeps (fun m => Memory.wf m = true) _ (fun _ _ h => wf_xorLane h _ _ _) coords m w

theorem wf_theta {m : Memory} (w : m.wf = true) : (theta m).wf = true :=
  foldl_keeps (fun m => Memory.wf m = true) _ (fun _ _ h => wf_xorColumn h _ _) coords m w

theorem rhoStep_S (w : RhoWalk) (t : Nat) :
    (rhoStep w t).S = saveLane w.S w.y (piRow w.x w.y) (rotl64 w.hand (rhoAmount t)) := rfl

theorem rhoStep_hand (w : RhoWalk) (t : Nat) : (rhoStep w t).hand = loadLane w.S w.y (piRow w.x w.y) := rfl

theorem rhoStep_x (w : RhoWalk) (t : Nat) : (rhoStep w t).x = w.y := rfl

theorem rhoStep_y (w : RhoWalk) (t : Nat) : (rhoStep w t).y = piRow w.x w.y := rfl

theorem wf_rhopi {m : Memory} (w : m.wf = true) : (rhopi m).wf = true :=
  foldl_keeps (fun v : RhoWalk => v.S.wf = true) rhoStep (fun _ _ h => wf_saveLane h _ _ _) (List.range 24) _ w

theorem wf_chiRow {m : Memory} (w : m.wf = true) (y : Coord) : (chiRow m y).wf = true :=
  foldl_keeps (fun m => Memory.wf m = true) _ (fun _ _ h => wf_saveLane h _ _ _) coords m w

theorem wf_chi {m : Memory} (w : m.wf = true) : (chi m).wf = true :=
  foldl_keeps (fun m => Memory.wf m = true) chiRow (fun _ _ h => wf_chiRow h _) coords m w

theorem wf_iotaStep (e : Engine) (j : Nat) (w : e.1.wf = true) : (iotaStep e j).1.wf = true := by
  unfold iotaStep
  split
  · exact wf_xorLane w _ _ _
  · exact w

theorem wf_iota {e : Engine} (w : e.1.wf = true) : (iota e).1.wf = true :=
  foldl_keeps (fun e : Engine => e.1.wf = true) iotaStep wf_iotaStep (List.range 7) e w

theorem wf_keccakRound (e : Engine) (w : e.1.wf = true) : (keccakRound e).1.wf = true :=
  wf_iota (wf_chi (wf_rhopi (wf_theta w)))

theorem wf_keccakf {m : Memory} (w : m.wf = true) : (keccakf m).1.wf = true :=
  iterate_keeps (fun e : Engine => e.1.wf = true) keccakRound wf_keccakRound 24 _ w

theorem wf_freeMemory (n : Nat) : (freeMemory n).wf = true :=
  Memory.wf_foldl_write (List.range Config.stateBytes) id (Config.freeStateByte n)
    (fun _ h => List.mem_range.mp h) rfl

theorem wf_clearState {m : Memory} (w : m.wf = true) : (clearState m).wf = true :=
  Memory.wf_foldl_write (List.range Config.stateBytes) id (fun _ => 0x00) (fun _ h => List.mem_range.mp h) w

theorem read_clearState (m : Memory) (a : Nat) :
    (clearState m).read a = if a < Config.stateBytes then 0 else m.read a := by
  rw [clearState, Memory.read_foldl_write (val := fun _ => 0x00)]
  simp only [List.mem_range, BitVec.ofNat_eq_ofNat]

end Sys2Proof.Machine
end

