-- ==== Sys2Proof/Laws/State.lean ====
section
/-! SUPPORT. One lemma per field per named update of the state, and for `permute`. -/

namespace Sys2Proof.Machine

/-! ### `setS` -/

@[simp] theorem State.setS_S (s : State) (m : Memory) : (s.setS m).S = m := rfl
@[simp] theorem State.setS_RATE (s : State) (m : Memory) : (s.setS m).RATE = s.RATE := rfl
@[simp] theorem State.setS_CAPACITY (s : State) (m : Memory) : (s.setS m).CAPACITY = s.CAPACITY := rfl
@[simp] theorem State.setS_SUFFIX (s : State) (m : Memory) : (s.setS m).SUFFIX = s.SUFFIX := rfl
@[simp] theorem State.setS_OUTLEN (s : State) (m : Memory) : (s.setS m).OUTLEN = s.OUTLEN := rfl
@[simp] theorem State.setS_CUR (s : State) (m : Memory) : (s.setS m).CUR = s.CUR := rfl
@[simp] theorem State.setS_LFSR (s : State) (m : Memory) : (s.setS m).LFSR = s.LFSR := rfl
@[simp] theorem State.setS_PHASE (s : State) (m : Memory) : (s.setS m).PHASE = s.PHASE := rfl
@[simp] theorem State.setS_pending (s : State) (m : Memory) : (s.setS m).pending = s.pending := rfl
@[simp] theorem State.setS_responses (s : State) (m : Memory) : (s.setS m).responses = s.responses := rfl
@[simp] theorem State.setS_results (s : State) (m : Memory) : (s.setS m).results = s.results := rfl
@[simp] theorem State.setS_freeIndex (s : State) (m : Memory) : (s.setS m).freeIndex = s.freeIndex := rfl

/-! ### `setLFSR` -/

@[simp] theorem State.setLFSR_S (s : State) (l : Byte) : (s.setLFSR l).S = s.S := rfl
@[simp] theorem State.setLFSR_RATE (s : State) (l : Byte) : (s.setLFSR l).RATE = s.RATE := rfl
@[simp] theorem State.setLFSR_CAPACITY (s : State) (l : Byte) : (s.setLFSR l).CAPACITY = s.CAPACITY := rfl
@[simp] theorem State.setLFSR_SUFFIX (s : State) (l : Byte) : (s.setLFSR l).SUFFIX = s.SUFFIX := rfl
@[simp] theorem State.setLFSR_OUTLEN (s : State) (l : Byte) : (s.setLFSR l).OUTLEN = s.OUTLEN := rfl
@[simp] theorem State.setLFSR_CUR (s : State) (l : Byte) : (s.setLFSR l).CUR = s.CUR := rfl
@[simp] theorem State.setLFSR_LFSR (s : State) (l : Byte) : (s.setLFSR l).LFSR = l := rfl
@[simp] theorem State.setLFSR_PHASE (s : State) (l : Byte) : (s.setLFSR l).PHASE = s.PHASE := rfl
@[simp] theorem State.setLFSR_pending (s : State) (l : Byte) : (s.setLFSR l).pending = s.pending := rfl
@[simp] theorem State.setLFSR_responses (s : State) (l : Byte) : (s.setLFSR l).responses = s.responses := rfl
@[simp] theorem State.setLFSR_results (s : State) (l : Byte) : (s.setLFSR l).results = s.results := rfl
@[simp] theorem State.setLFSR_freeIndex (s : State) (l : Byte) : (s.setLFSR l).freeIndex = s.freeIndex := rfl

/-! ### `setCUR` -/

@[simp] theorem State.setCUR_S (s : State) (c : Byte) : (s.setCUR c).S = s.S := rfl
@[simp] theorem State.setCUR_RATE (s : State) (c : Byte) : (s.setCUR c).RATE = s.RATE := rfl
@[simp] theorem State.setCUR_CAPACITY (s : State) (c : Byte) : (s.setCUR c).CAPACITY = s.CAPACITY := rfl
@[simp] theorem State.setCUR_SUFFIX (s : State) (c : Byte) : (s.setCUR c).SUFFIX = s.SUFFIX := rfl
@[simp] theorem State.setCUR_OUTLEN (s : State) (c : Byte) : (s.setCUR c).OUTLEN = s.OUTLEN := rfl
@[simp] theorem State.setCUR_CUR (s : State) (c : Byte) : (s.setCUR c).CUR = c := rfl
@[simp] theorem State.setCUR_LFSR (s : State) (c : Byte) : (s.setCUR c).LFSR = s.LFSR := rfl
@[simp] theorem State.setCUR_PHASE (s : State) (c : Byte) : (s.setCUR c).PHASE = s.PHASE := rfl
@[simp] theorem State.setCUR_pending (s : State) (c : Byte) : (s.setCUR c).pending = s.pending := rfl
@[simp] theorem State.setCUR_responses (s : State) (c : Byte) : (s.setCUR c).responses = s.responses := rfl
@[simp] theorem State.setCUR_results (s : State) (c : Byte) : (s.setCUR c).results = s.results := rfl
@[simp] theorem State.setCUR_freeIndex (s : State) (c : Byte) : (s.setCUR c).freeIndex = s.freeIndex := rfl

/-! ### `setPHASE` -/

@[simp] theorem State.setPHASE_S (s : State) (p : Phase) : (s.setPHASE p).S = s.S := rfl
@[simp] theorem State.setPHASE_RATE (s : State) (p : Phase) : (s.setPHASE p).RATE = s.RATE := rfl
@[simp] theorem State.setPHASE_CAPACITY (s : State) (p : Phase) : (s.setPHASE p).CAPACITY = s.CAPACITY := rfl
@[simp] theorem State.setPHASE_SUFFIX (s : State) (p : Phase) : (s.setPHASE p).SUFFIX = s.SUFFIX := rfl
@[simp] theorem State.setPHASE_OUTLEN (s : State) (p : Phase) : (s.setPHASE p).OUTLEN = s.OUTLEN := rfl
@[simp] theorem State.setPHASE_CUR (s : State) (p : Phase) : (s.setPHASE p).CUR = s.CUR := rfl
@[simp] theorem State.setPHASE_LFSR (s : State) (p : Phase) : (s.setPHASE p).LFSR = s.LFSR := rfl
@[simp] theorem State.setPHASE_PHASE (s : State) (p : Phase) : (s.setPHASE p).PHASE = p := rfl
@[simp] theorem State.setPHASE_pending (s : State) (p : Phase) : (s.setPHASE p).pending = s.pending := rfl
@[simp] theorem State.setPHASE_responses (s : State) (p : Phase) : (s.setPHASE p).responses = s.responses := rfl
@[simp] theorem State.setPHASE_results (s : State) (p : Phase) : (s.setPHASE p).results = s.results := rfl
@[simp] theorem State.setPHASE_freeIndex (s : State) (p : Phase) : (s.setPHASE p).freeIndex = s.freeIndex := rfl

/-! ### `setParameters` -/

@[simp] theorem State.setParameters_S (s : State) (r c : BitVec 16) (x : Byte) (o : BitVec 32) : (s.setParameters r c x o).S = s.S := rfl
@[simp] theorem State.setParameters_RATE (s : State) (r c : BitVec 16) (x : Byte) (o : BitVec 32) : (s.setParameters r c x o).RATE = r := rfl
@[simp] theorem State.setParameters_CAPACITY (s : State) (r c : BitVec 16) (x : Byte) (o : BitVec 32) : (s.setParameters r c x o).CAPACITY = c := rfl
@[simp] theorem State.setParameters_SUFFIX (s : State) (r c : BitVec 16) (x : Byte) (o : BitVec 32) : (s.setParameters r c x o).SUFFIX = x := rfl
@[simp] theorem State.setParameters_OUTLEN (s : State) (r c : BitVec 16) (x : Byte) (o : BitVec 32) : (s.setParameters r c x o).OUTLEN = o := rfl
@[simp] theorem State.setParameters_CUR (s : State) (r c : BitVec 16) (x : Byte) (o : BitVec 32) : (s.setParameters r c x o).CUR = s.CUR := rfl
@[simp] theorem State.setParameters_LFSR (s : State) (r c : BitVec 16) (x : Byte) (o : BitVec 32) : (s.setParameters r c x o).LFSR = s.LFSR := rfl
@[simp] theorem State.setParameters_PHASE (s : State) (r c : BitVec 16) (x : Byte) (o : BitVec 32) : (s.setParameters r c x o).PHASE = s.PHASE := rfl
@[simp] theorem State.setParameters_pending (s : State) (r c : BitVec 16) (x : Byte) (o : BitVec 32) : (s.setParameters r c x o).pending = s.pending := rfl
@[simp] theorem State.setParameters_responses (s : State) (r c : BitVec 16) (x : Byte) (o : BitVec 32) : (s.setParameters r c x o).responses = s.responses := rfl
@[simp] theorem State.setParameters_results (s : State) (r c : BitVec 16) (x : Byte) (o : BitVec 32) : (s.setParameters r c x o).results = s.results := rfl
@[simp] theorem State.setParameters_freeIndex (s : State) (r c : BitVec 16) (x : Byte) (o : BitVec 32) : (s.setParameters r c x o).freeIndex = s.freeIndex := rfl

/-! ### `setPending` -/

@[simp] theorem State.setPending_S (s : State) (q : List Request) : (s.setPending q).S = s.S := rfl
@[simp] theorem State.setPending_RATE (s : State) (q : List Request) : (s.setPending q).RATE = s.RATE := rfl
@[simp] theorem State.setPending_CAPACITY (s : State) (q : List Request) : (s.setPending q).CAPACITY = s.CAPACITY := rfl
@[simp] theorem State.setPending_SUFFIX (s : State) (q : List Request) : (s.setPending q).SUFFIX = s.SUFFIX := rfl
@[simp] theorem State.setPending_OUTLEN (s : State) (q : List Request) : (s.setPending q).OUTLEN = s.OUTLEN := rfl
@[simp] theorem State.setPending_CUR (s : State) (q : List Request) : (s.setPending q).CUR = s.CUR := rfl
@[simp] theorem State.setPending_LFSR (s : State) (q : List Request) : (s.setPending q).LFSR = s.LFSR := rfl
@[simp] theorem State.setPending_PHASE (s : State) (q : List Request) : (s.setPending q).PHASE = s.PHASE := rfl
@[simp] theorem State.setPending_pending (s : State) (q : List Request) : (s.setPending q).pending = q := rfl
@[simp] theorem State.setPending_responses (s : State) (q : List Request) : (s.setPending q).responses = s.responses := rfl
@[simp] theorem State.setPending_results (s : State) (q : List Request) : (s.setPending q).results = s.results := rfl
@[simp] theorem State.setPending_freeIndex (s : State) (q : List Request) : (s.setPending q).freeIndex = s.freeIndex := rfl

/-! ### `bumpFree` -/

@[simp] theorem State.bumpFree_S (s : State) : (s.bumpFree).S = s.S := rfl
@[simp] theorem State.bumpFree_RATE (s : State) : (s.bumpFree).RATE = s.RATE := rfl
@[simp] theorem State.bumpFree_CAPACITY (s : State) : (s.bumpFree).CAPACITY = s.CAPACITY := rfl
@[simp] theorem State.bumpFree_SUFFIX (s : State) : (s.bumpFree).SUFFIX = s.SUFFIX := rfl
@[simp] theorem State.bumpFree_OUTLEN (s : State) : (s.bumpFree).OUTLEN = s.OUTLEN := rfl
@[simp] theorem State.bumpFree_CUR (s : State) : (s.bumpFree).CUR = s.CUR := rfl
@[simp] theorem State.bumpFree_LFSR (s : State) : (s.bumpFree).LFSR = s.LFSR := rfl
@[simp] theorem State.bumpFree_PHASE (s : State) : (s.bumpFree).PHASE = s.PHASE := rfl
@[simp] theorem State.bumpFree_pending (s : State) : (s.bumpFree).pending = s.pending := rfl
@[simp] theorem State.bumpFree_responses (s : State) : (s.bumpFree).responses = s.responses := rfl
@[simp] theorem State.bumpFree_results (s : State) : (s.bumpFree).results = s.results := rfl
@[simp] theorem State.bumpFree_freeIndex (s : State) : (s.bumpFree).freeIndex = s.freeIndex + 1 := rfl

/-! ### `respond` -/

@[simp] theorem State.respond_S (s : State) (e : Status) (p : List Byte) : (s.respond e p).S = s.S := rfl
@[simp] theorem State.respond_RATE (s : State) (e : Status) (p : List Byte) : (s.respond e p).RATE = s.RATE := rfl
@[simp] theorem State.respond_CAPACITY (s : State) (e : Status) (p : List Byte) : (s.respond e p).CAPACITY = s.CAPACITY := rfl
@[simp] theorem State.respond_SUFFIX (s : State) (e : Status) (p : List Byte) : (s.respond e p).SUFFIX = s.SUFFIX := rfl
@[simp] theorem State.respond_OUTLEN (s : State) (e : Status) (p : List Byte) : (s.respond e p).OUTLEN = s.OUTLEN := rfl
@[simp] theorem State.respond_CUR (s : State) (e : Status) (p : List Byte) : (s.respond e p).CUR = s.CUR := rfl
@[simp] theorem State.respond_LFSR (s : State) (e : Status) (p : List Byte) : (s.respond e p).LFSR = s.LFSR := rfl
@[simp] theorem State.respond_PHASE (s : State) (e : Status) (p : List Byte) : (s.respond e p).PHASE = s.PHASE := rfl
@[simp] theorem State.respond_pending (s : State) (e : Status) (p : List Byte) : (s.respond e p).pending = s.pending := rfl
@[simp] theorem State.respond_responses (s : State) (e : Status) (p : List Byte) : (s.respond e p).responses = s.responses ++ [⟨e, p⟩] := rfl
@[simp] theorem State.respond_results (s : State) (e : Status) (p : List Byte) : (s.respond e p).results = s.results := rfl
@[simp] theorem State.respond_freeIndex (s : State) (e : Status) (p : List Byte) : (s.respond e p).freeIndex = s.freeIndex := rfl

/-! ### `giveResult` -/

@[simp] theorem State.giveResult_S (s : State) (r : UnitResult) : (s.giveResult r).S = s.S := rfl
@[simp] theorem State.giveResult_RATE (s : State) (r : UnitResult) : (s.giveResult r).RATE = s.RATE := rfl
@[simp] theorem State.giveResult_CAPACITY (s : State) (r : UnitResult) : (s.giveResult r).CAPACITY = s.CAPACITY := rfl
@[simp] theorem State.giveResult_SUFFIX (s : State) (r : UnitResult) : (s.giveResult r).SUFFIX = s.SUFFIX := rfl
@[simp] theorem State.giveResult_OUTLEN (s : State) (r : UnitResult) : (s.giveResult r).OUTLEN = s.OUTLEN := rfl
@[simp] theorem State.giveResult_CUR (s : State) (r : UnitResult) : (s.giveResult r).CUR = s.CUR := rfl
@[simp] theorem State.giveResult_LFSR (s : State) (r : UnitResult) : (s.giveResult r).LFSR = s.LFSR := rfl
@[simp] theorem State.giveResult_PHASE (s : State) (r : UnitResult) : (s.giveResult r).PHASE = s.PHASE := rfl
@[simp] theorem State.giveResult_pending (s : State) (r : UnitResult) : (s.giveResult r).pending = s.pending := rfl
@[simp] theorem State.giveResult_responses (s : State) (r : UnitResult) : (s.giveResult r).responses = s.responses := rfl
@[simp] theorem State.giveResult_results (s : State) (r : UnitResult) : (s.giveResult r).results = s.results ++ [r] := rfl
@[simp] theorem State.giveResult_freeIndex (s : State) (r : UnitResult) : (s.giveResult r).freeIndex = s.freeIndex := rfl

/-! ### `setEngine` -/

@[simp] theorem State.setEngine_S (s : State) (e : Engine) : (s.setEngine e).S = e.1 := rfl
@[simp] theorem State.setEngine_RATE (s : State) (e : Engine) : (s.setEngine e).RATE = s.RATE := rfl
@[simp] theorem State.setEngine_CAPACITY (s : State) (e : Engine) : (s.setEngine e).CAPACITY = s.CAPACITY := rfl
@[simp] theorem State.setEngine_SUFFIX (s : State) (e : Engine) : (s.setEngine e).SUFFIX = s.SUFFIX := rfl
@[simp] theorem State.setEngine_OUTLEN (s : State) (e : Engine) : (s.setEngine e).OUTLEN = s.OUTLEN := rfl
@[simp] theorem State.setEngine_CUR (s : State) (e : Engine) : (s.setEngine e).CUR = s.CUR := rfl
@[simp] theorem State.setEngine_LFSR (s : State) (e : Engine) : (s.setEngine e).LFSR = e.2 := rfl
@[simp] theorem State.setEngine_PHASE (s : State) (e : Engine) : (s.setEngine e).PHASE = s.PHASE := rfl
@[simp] theorem State.setEngine_pending (s : State) (e : Engine) : (s.setEngine e).pending = s.pending := rfl
@[simp] theorem State.setEngine_responses (s : State) (e : Engine) : (s.setEngine e).responses = s.responses := rfl
@[simp] theorem State.setEngine_results (s : State) (e : Engine) : (s.setEngine e).results = s.results := rfl
@[simp] theorem State.setEngine_freeIndex (s : State) (e : Engine) : (s.setEngine e).freeIndex = s.freeIndex := rfl

/-! ### `permute` -/

@[simp] theorem permute_S (s : State) : (permute s).S = (keccakf s.S).1 := State.setEngine_S s _
@[simp] theorem permute_RATE (s : State) : (permute s).RATE = s.RATE := State.setEngine_RATE s _
@[simp] theorem permute_CAPACITY (s : State) : (permute s).CAPACITY = s.CAPACITY := State.setEngine_CAPACITY s _
@[simp] theorem permute_SUFFIX (s : State) : (permute s).SUFFIX = s.SUFFIX := State.setEngine_SUFFIX s _
@[simp] theorem permute_OUTLEN (s : State) : (permute s).OUTLEN = s.OUTLEN := State.setEngine_OUTLEN s _
@[simp] theorem permute_CUR (s : State) : (permute s).CUR = s.CUR := State.setEngine_CUR s _
@[simp] theorem permute_LFSR (s : State) : (permute s).LFSR = (keccakf s.S).2 := State.setEngine_LFSR s _
@[simp] theorem permute_PHASE (s : State) : (permute s).PHASE = s.PHASE := State.setEngine_PHASE s _
@[simp] theorem permute_pending (s : State) : (permute s).pending = s.pending := State.setEngine_pending s _
@[simp] theorem permute_responses (s : State) : (permute s).responses = s.responses := State.setEngine_responses s _
@[simp] theorem permute_results (s : State) : (permute s).results = s.results := State.setEngine_results s _
@[simp] theorem permute_freeIndex (s : State) : (permute s).freeIndex = s.freeIndex := State.setEngine_freeIndex s _

/-! ### The byte rate depends on RATE alone -/

theorem rateBytes_eq (s : State) : rateBytes s = s.RATE.toNat / 8 := rfl

theorem rateBytes_congr {s t : State} (h : t.RATE = s.RATE) : rateBytes t = rateBytes s := by
  rw [rateBytes, h, rateBytes]

end Sys2Proof.Machine
end

