-- ==== Sys2Proof/Laws/Driver.lean ====
section
/-! SUPPORT. What the driver's shared operations can do, each said once: a byte XOR, AbsorbByte, a run of
AbsorbByte, CONSTRUCT and ABSORB on their operands, the parts of FINALIZE, and the request a step takes. -/

namespace Sys2Proof.Machine

/-- One byte XOR happens exactly inside `S` and writes that byte alone. -/
theorem xorByte_eq_ok {a : Nat} {v : Byte} {s t : State} :
    xorByte a v s = .ok t ↔ a < Config.stateBytes ∧ s.setS (s.S.write a (s.S.read a ^^^ v)) = t := by
  unfold xorByte
  split <;> simp_all

theorem xorByte_inside {a : Nat} (h : a < Config.stateBytes) (v : Byte) (s : State) :
    xorByte a v s = .ok (s.setS (s.S.write a (s.S.read a ^^^ v))) := by
  rw [xorByte, if_pos h]

/-- The state after AbsorbByte's XOR and increment (R153). -/
def afterByte (b : Byte) (s : State) : State :=
  (s.setS (s.S.write s.CUR.toNat (s.S.read s.CUR.toNat ^^^ b))).setCUR (s.CUR + 1)

/-- Everything AbsorbByte can do (R153): it either fills the block, permutes and starts the next, or leaves the
block open; it happens exactly when the cursor is inside `S`. -/
theorem absorbByte_cases {b : Byte} {s t : State} (h : absorbByte b s = .ok t) :
    s.CUR.toNat < Config.stateBytes ∧
      (((s.CUR + 1).toNat = rateBytes s ∧ t = (permute (afterByte b s)).setCUR 0) ∨
       ((s.CUR + 1).toNat ≠ rateBytes s ∧ t = afterByte b s)) := by
  unfold absorbByte at h
  by_cases hc : s.CUR.toNat < Config.stateBytes
  · refine ⟨hc, ?_⟩
    rw [xorByte_inside hc] at h
    change (if (s.CUR + 1).toNat = rateBytes s then Except.ok ((permute (afterByte b s)).setCUR 0)
      else Except.ok (afterByte b s)) = Except.ok t at h
    by_cases hr : (s.CUR + 1).toNat = rateBytes s
    · rw [if_pos hr] at h
      exact .inl ⟨hr, (Except.ok.inj h).symm⟩
    · rw [if_neg hr] at h
      exact .inr ⟨hr, (Except.ok.inj h).symm⟩
  · rw [xorByte, if_neg hc] at h
    cases h

/-- AbsorbByte leaves the lifecycle, the parameters and the interface alone (R152, R153). -/
theorem absorbByte_frame {b : Byte} {s t : State} (h : absorbByte b s = .ok t) :
    t = { s with S := t.S, CUR := t.CUR, LFSR := t.LFSR } := by
  obtain ⟨-, ⟨-, rfl⟩ | ⟨-, rfl⟩⟩ := absorbByte_cases h <;> ext1 <;> simp [afterByte]

theorem absorbByte_wf {b : Byte} {s t : State} (h : absorbByte b s = .ok t) (w : s.S.wf = true) :
    t.S.wf = true := by
  obtain ⟨hc, ⟨-, rfl⟩ | ⟨-, rfl⟩⟩ := absorbByte_cases h
  · exact wf_keccakf (Memory.wf_write w hc _)
  · exact Memory.wf_write w hc _

theorem absorbBytes_nil (s : State) : absorbBytes [] s = .ok s := rfl

theorem absorbBytes_cons (b : Byte) (bs : List Byte) (s : State) :
    absorbBytes (b :: bs) s = (absorbByte b s).bind (absorbBytes bs) := by
  rw [absorbBytes]
  cases absorbByte b s <;> rfl

/-- Absorbing two runs of bytes one after the other is absorbing their concatenation. -/
theorem absorbBytes_append (l l' : List Byte) (s : State) :
    absorbBytes (l ++ l') s = (absorbBytes l s).bind (absorbBytes l') := by
  induction l generalizing s with
  | nil => rfl
  | cons b l ih =>
    rw [List.cons_append, absorbBytes_cons, absorbBytes_cons]
    cases absorbByte b s with
    | error f => rfl
    | ok t => exact ih t

theorem absorbBytes_frame {bs : List Byte} {s t : State} (h : absorbBytes bs s = .ok t) :
    t = { s with S := t.S, CUR := t.CUR, LFSR := t.LFSR } := by
  induction bs generalizing s with
  | nil => cases h; rfl
  | cons b bs ih =>
    rw [absorbBytes_cons] at h
    cases hb : absorbByte b s with
    | error f => rw [hb] at h; cases h
    | ok u =>
      rw [hb] at h
      have hu := absorbByte_frame hb
      have ht := ih h
      rw [hu] at ht
      exact ht

theorem absorbBytes_wf {bs : List Byte} {s t : State} (h : absorbBytes bs s = .ok t) (w : s.S.wf = true) :
    t.S.wf = true := by
  induction bs generalizing s with
  | nil => cases h; exact w
  | cons b bs ih =>
    rw [absorbBytes_cons] at h
    cases hb : absorbByte b s with
    | error f => rw [hb] at h; cases h
    | ok u =>
      rw [hb] at h
      exact ih h (absorbByte_wf hb w)

/-! ## Commands -/

/-- Everything CONSTRUCT can do (R150). -/
theorem construct_cases (r c : BitVec 16) (x : Byte) (o : BitVec 32) (s : State) :
    (s.PHASE ≠ .unconfigured ∧ construct r c x o s = raise .invalidState s) ∨
    (s.PHASE = .unconfigured ∧ parametersLegal r c = false ∧ construct r c x o s = raise .invalidParameter s) ∨
    (s.PHASE = .unconfigured ∧ parametersLegal r c = true ∧
      construct r c x o s = respondOk [] ((s.setParameters r c x o).setPHASE .configured)) := by
  by_cases hp : s.PHASE = .unconfigured
  · cases hl : parametersLegal r c
    · exact .inr (.inl ⟨hp, rfl, by rw [construct, if_neg (not_not.mpr hp), if_neg (by simp [hl])]⟩)
    · exact .inr (.inr ⟨hp, rfl, by rw [construct, if_neg (not_not.mpr hp), if_pos hl]⟩)
  · exact .inl ⟨hp, by rw [construct, if_pos hp]⟩

/-- Everything ABSORB can do with its operands (R152): one of the two exceptions, or its bytes. -/
theorem absorbCommand_cases (buf : List Byte) (offset length : Nat) (s : State) :
    (s.PHASE ≠ .absorbing ∧ absorbCommand buf offset length s = raise .invalidState s) ∨
    (s.PHASE = .absorbing ∧ buf.length < offset + length ∧
      absorbCommand buf offset length s = raise .outOfRange s) ∨
    (s.PHASE = .absorbing ∧ offset + length ≤ buf.length ∧
      (∀ f, absorbBytes (bufferSlice buf offset length) s = .error f →
        absorbCommand buf offset length s = .fault f) ∧
      (∀ t, absorbBytes (bufferSlice buf offset length) s = .ok t →
        absorbCommand buf offset length s = respondOk [] t)) := by
  by_cases hp : s.PHASE = .absorbing
  · by_cases hl : offset + length ≤ buf.length
    · have hr : rangeLegal buf offset length = true := by simpa [rangeLegal] using hl
      refine .inr (.inr ⟨hp, hl, fun f hf => ?_, fun t ht => ?_⟩)
      · rw [absorbCommand, if_neg (not_not.mpr hp), if_pos hr, hf]
      · rw [absorbCommand, if_neg (not_not.mpr hp), if_pos hr, ht]
    · exact .inr (.inl ⟨hp, by omega, by
        rw [absorbCommand, if_neg (not_not.mpr hp), if_neg (by simpa [rangeLegal] using hl)]⟩)
  · exact .inl ⟨hp, by rw [absorbCommand, if_pos hp]⟩

/-- Step 3 of FINALIZE writes the last byte of the rate portion (R155). -/
theorem padLastByte_inside {s : State} (h1 : 1 ≤ rateBytes s) (h2 : rateBytes s ≤ Config.stateBytes) :
    padLastByte s =
      .ok (s.setS (s.S.write (rateBytes s - 1) (s.S.read (rateBytes s - 1) ^^^ finalPad))) := by
  obtain ⟨r, hr⟩ : ∃ r, rateBytes s = r + 1 := ⟨rateBytes s - 1, by omega⟩
  rw [padLastByte, hr]
  exact xorByte_inside (by omega) _ _

/-- One turn of the squeeze (R155 step 5). -/
theorem squeeze_turn (r fuel rem : Nat) (s : State) : squeeze r (fuel + 1) rem s =
    if rem = 0 then ([], s)
    else if rem - min rem r = 0 then (s.S.readList 0 (min rem r), s)
    else (s.S.readList 0 (min rem r) ++ (squeeze r fuel (rem - min rem r) (permute s)).1,
      (squeeze r fuel (rem - min rem r) (permute s)).2) := rfl

/-- The squeeze returns as many bytes as it is asked for (R157). -/
theorem squeeze_length {r : Nat} (hr : 1 ≤ r) :
    ∀ (fuel rem : Nat) (s : State), rem ≤ fuel → (squeeze r fuel rem s).1.length = rem
  | 0, rem, s, h => by rw [squeeze, Nat.le_zero.mp h]; rfl
  | fuel + 1, rem, s, h => by
    rw [squeeze_turn]
    split_ifs with h0 h1
    · exact h0.symm
    · rw [Memory.readList_length]; omega
    · rw [List.length_append, Memory.readList_length, squeeze_length hr fuel _ _ (by omega)]
      omega

/-- The squeeze changes what the permutation changes (R155). -/
theorem squeeze_frame (r : Nat) : ∀ (fuel rem : Nat) (s : State),
    (squeeze r fuel rem s).2 = { s with S := (squeeze r fuel rem s).2.S, LFSR := (squeeze r fuel rem s).2.LFSR }
  | 0, _, _ => rfl
  | fuel + 1, rem, s => by
    rw [squeeze_turn]
    split_ifs
    · rfl
    · rfl
    · have h := squeeze_frame r fuel (rem - min rem r) (permute s)
      generalize (squeeze r fuel (rem - min rem r) (permute s)).2 = t at h
      rw [h]
      ext1 <;> simp
/-! ## What a step takes -/

theorem nextRequest_cons (s : State) (r : Request) (rest : List Request) (h : s.pending = r :: rest) :
    nextRequest s = some (r, s.setPending rest) := by
  rw [nextRequest, h]

theorem nextRequest_nil (s : State) (h : s.pending = []) : nextRequest s = none := by
  rw [nextRequest, h]

end Sys2Proof.Machine
end

