-- ==== Sys2Proof/Laws/PerInstr.lean ====
section
/-! SUPPORT. Per-instruction families of LAWS.json. -/

namespace Sys2Proof.Laws

/-- How many codes of a format name an operation (R81, R82). -/
def RecordCode.limit : Format → Nat
  | .cmd => 4
  | .uop => 10

/-- The record of an operation begins with a code of its own format: one of the four values of `op[1:0]` (R81), or one
of the ten values of `uop[3:0]` that name an operation (R82). -/
def RecordCode.Statement (i : Instr) : Prop :=
  ∃ operands, encode i = i.code :: operands ∧ i.code.toNat < RecordCode.limit i.format

theorem RecordCode.construct (r c : BitVec 16) (x : Byte) (o : BitVec 32) : RecordCode.Statement (.construct r c x o) :=
  ⟨_, rfl, show (0 : Nat) < 4 by decide⟩

theorem RecordCode.initialise : RecordCode.Statement (.initialise) :=
  ⟨_, rfl, show (1 : Nat) < 4 by decide⟩

theorem RecordCode.absorb (buf : List Byte) (off len : BitVec 32) : RecordCode.Statement (.absorb buf off len) :=
  ⟨_, rfl, show (2 : Nat) < 4 by decide⟩

theorem RecordCode.finalize : RecordCode.Statement (.finalize) :=
  ⟨_, rfl, show (3 : Nat) < 4 by decide⟩

theorem RecordCode.loadlane (x y : Coord) : RecordCode.Statement (.loadlane x y) :=
  ⟨_, rfl, show (0 : Nat) < 10 by decide⟩

theorem RecordCode.savelane (x y : Coord) (v : Lane) : RecordCode.Statement (.savelane x y v) :=
  ⟨_, rfl, show (1 : Nat) < 10 by decide⟩

theorem RecordCode.xorlane (x y : Coord) (v : Lane) : RecordCode.Statement (.xorlane x y v) :=
  ⟨_, rfl, show (2 : Nat) < 10 by decide⟩

theorem RecordCode.lfsrstep : RecordCode.Statement (.lfsrstep) :=
  ⟨_, rfl, show (3 : Nat) < 10 by decide⟩

theorem RecordCode.theta : RecordCode.Statement (.theta) :=
  ⟨_, rfl, show (4 : Nat) < 10 by decide⟩

theorem RecordCode.rhopi : RecordCode.Statement (.rhopi) :=
  ⟨_, rfl, show (5 : Nat) < 10 by decide⟩

theorem RecordCode.chi : RecordCode.Statement (.chi) :=
  ⟨_, rfl, show (6 : Nat) < 10 by decide⟩

theorem RecordCode.iota : RecordCode.Statement (.iota) :=
  ⟨_, rfl, show (7 : Nat) < 10 by decide⟩

theorem RecordCode.round : RecordCode.Statement (.round) :=
  ⟨_, rfl, show (8 : Nat) < 10 by decide⟩

theorem RecordCode.keccakf : RecordCode.Statement (.keccakf) :=
  ⟨_, rfl, show (9 : Nat) < 10 by decide⟩

theorem RecordCode.digest224 : RecordCode.Statement (.digest224) :=
  ⟨_, rfl, show (0 : Nat) < 4 by decide⟩

theorem RecordCode.digest256 : RecordCode.Statement (.digest256) :=
  ⟨_, rfl, show (0 : Nat) < 4 by decide⟩

theorem RecordCode.digest384 : RecordCode.Statement (.digest384) :=
  ⟨_, rfl, show (0 : Nat) < 4 by decide⟩

theorem RecordCode.digest512 : RecordCode.Statement (.digest512) :=
  ⟨_, rfl, show (0 : Nat) < 4 by decide⟩

theorem RecordCode.absorbBuf (buf : List Byte) : RecordCode.Statement (.absorbBuf buf) :=
  ⟨_, rfl, show (2 : Nat) < 4 by decide⟩

end Sys2Proof.Laws
end

