-- ==== Sys2Proof/Tests/Slice0.lean ====
section
/-! SUPPORT. The model's own tests: WellFormed's smoke test, records written out from the spec's encoding, one step per
operation on a small state against the vectors of 95_test_vectors.md, and a witness for the hypotheses of each statement. -/

namespace Sys2Proof.Tests

open Sys2Proof.Machine Sys2Proof.Claims

/-! ## Helpers -/

/-- The outcome is a next state with the property. -/
def nextHas (o : StepOutcome) (p : State → Bool) : Bool :=
  match o with
  | .next t => p t
  | .fault _ => false
  | .refused _ => false

/-- A block in phase ABSORBING with the parameters of DIGEST256, the given cursor, suffix and bytes of `S`. -/
def absorbingAt (cur : Byte) (suffix : Byte) (m : Memory) : State :=
  { State.reset with S := m, RATE := 1088, CAPACITY := 512, SUFFIX := suffix, OUTLEN := 32, CUR := cur, PHASE := .absorbing }

/-- Three bytes "abc" absorbed (V9.4). -/
def afterAbc : State := absorbingAt 3 0x06 [(0, 0x61), (1, 0x62), (2, 0x63)]

/-- A state that holds `S` and LFSR only. -/
def engineState (m : Memory) (l : Byte) : State := { State.reset with S := m, LFSR := l }

/-- The bytes of a lane as entries, for states in which one lane is not zero. -/
def laneCells (x y : Coord) (v : Lane) : Memory := saveLane [] x y v

/-! ## WellFormed -/

theorem test_wellFormed_accepts : (Instr.absorb [0x61] 0 1).wellFormed = true := by decide

theorem long_buffer_unfit : bufferFits (List.replicate (2 ^ 32) 0x00) = false := by
  rw [bufferFits, List.length_replicate]
  exact decide_eq_false (Nat.lt_irrefl _)

/-- R84: a buffer whose length does not fit `buflen` is refused. -/
theorem test_wellFormed_refuses_long_absorb :
    (Instr.absorb (List.replicate (2 ^ 32) 0x00) 0 0).wellFormed = false := long_buffer_unfit

theorem test_wellFormed_refuses_long_absorbBuf :
    (Instr.absorbBuf (List.replicate (2 ^ 32) 0x00)).wellFormed = false := long_buffer_unfit

/-! ## Decoding: the code is R81's or R82's, the operands those of R83 to R85, least significant byte first -/

/-- P1 step 1: op 0; 0x0440, 0x0200, 0x06, 0x00000020. -/
theorem test_decode_construct :
    decode .cmd [0b00, 0b01000000, 0b00000100, 0, 0b00000010, 0b00000110, 0b00100000, 0, 0, 0] =
      .ok (.construct 1088 512 0x06 32) := by decide

theorem test_decode_initialise : decode .cmd [0b01] = .ok .initialise := by decide

/-- P1 step 3: op 2; buf = 61 62 63, buflen 3, offset 0, length 3. -/
theorem test_decode_absorb :
    decode .cmd [0b10, 3, 0, 0, 0, 0, 0, 0, 0, 3, 0, 0, 0, 0x61, 0x62, 0x63] =
      .ok (.absorb [0x61, 0x62, 0x63] 0 3) := by decide

theorem test_decode_finalize : decode .cmd [0b11] = .ok .finalize := by decide

theorem test_decode_loadlane : decode .uop [0b0000, 0b001, 0b100] = .ok (.loadlane 1 4) := by decide

theorem test_decode_savelane :
    decode .uop [0b0001, 0b000, 0b010, 0x88, 0x77, 0x66, 0x55, 0x44, 0x33, 0x22, 0x11] =
      .ok (.savelane 0 2 0x1122334455667788) := by decide

theorem test_decode_xorlane :
    decode .uop [0b0010, 0b100, 0b000, 0xFF, 0, 0, 0, 0, 0, 0, 0x80] = .ok (.xorlane 4 0 0x80000000000000FF) := by decide

theorem test_decode_lfsrstep : decode .uop [0b0011] = .ok .lfsrstep := by decide

theorem test_decode_theta : decode .uop [0b0100] = .ok .theta := by decide

theorem test_decode_rhopi : decode .uop [0b0101] = .ok .rhopi := by decide

theorem test_decode_chi : decode .uop [0b0110] = .ok .chi := by decide

theorem test_decode_iota : decode .uop [0b0111] = .ok .iota := by decide

theorem test_decode_round : decode .uop [0b1000] = .ok .round := by decide

theorem test_decode_keccakf : decode .uop [0b1001] = .ok .keccakf := by decide

/-- R92: the pseudo-commands' words are their expansions'. -/
theorem test_encode_digest224 : encode .digest224 = [0, 0x80, 0x04, 0xC0, 0x01, 0x06, 0x1C, 0, 0, 0] := by decide

theorem test_encode_digest256 : encode .digest256 = [0, 0x40, 0x04, 0x00, 0x02, 0x06, 0x20, 0, 0, 0] := by decide

theorem test_encode_digest384 : encode .digest384 = [0, 0x40, 0x03, 0x00, 0x03, 0x06, 0x30, 0, 0, 0] := by decide

theorem test_encode_digest512 : encode .digest512 = [0, 0x40, 0x02, 0x00, 0x04, 0x06, 0x40, 0, 0, 0] := by decide

theorem test_encode_absorbBuf :
    encode (.absorbBuf [0x61, 0x62]) = [2, 2, 0, 0, 0, 0, 0, 0, 0, 2, 0, 0, 0, 0x61, 0x62] := by decide

/-- R88: `uop` 10 to 15 and coordinates 5 to 7. -/
theorem test_decode_reserved :
    decode .uop [0b1010] = .error .reservedUop ∧ decode .uop [0b1111] = .error .reservedUop ∧
    decode .uop [0, 5, 0] = .error .reservedCoordinate ∧ decode .uop [0, 0, 7] = .error .reservedCoordinate := by decide

/-- A `buflen` that is not the length of `buf`, and a missing operand byte. -/
theorem test_decode_malformed :
    decode .cmd [2, 2, 0, 0, 0, 0, 0, 0, 0, 0, 0, 0, 0, 0x61] = .error .malformedOperands ∧
    decode .cmd [0, 0x40] = .error .malformedOperands := by decide

/-! ## One step of each operation -/

/-- V10.1, R150: from reset. -/
theorem test_construct_ok :
    nextHas (exec (.construct 1088 512 0x06 32) State.reset) (fun t =>
      t.RATE = 1088 && t.OUTLEN = 32 && t.PHASE = .configured && t.responses = [⟨.ok, []⟩]) = true := by decide

/-- V10.1: 1608 + 65528 is 67136 as a mathematical integer, not 1600. -/
theorem test_construct_no_wrap :
    nextHas (exec (.construct 1608 65528 0x06 32) State.reset) (fun t =>
      t.PHASE = .unconfigured && t.responses = [⟨.invalidParameter, []⟩]) = true := by decide

/-- R151. -/
theorem test_initialise_restarts :
    nextHas (exec .initialise afterAbc) (fun t => t.S.read 1 = 0 && t.CUR = 0 && t.RATE = 1088) = true := by
  decide +kernel

/-- V10.3: UNCONFIGURED. -/
theorem test_initialise_unconfigured :
    nextHas (exec .initialise State.reset) (fun t =>
      t.PHASE = .unconfigured && t.responses = [⟨.invalidState, []⟩]) = true := by decide

/-- V9.20: `ABSORB buf, 2, 3` absorbs 61 62 63. -/
theorem test_absorb_offset :
    nextHas (exec (.absorb [0x58, 0x58, 0x61, 0x62, 0x63, 0x59] 2 3) (absorbingAt 0 0x06 [])) (fun t =>
      t.S = [(0, 0x61), (1, 0x62), (2, 0x63)] && t.CUR = 3) = true := by decide +kernel

/-- V10.2: the sum 4294967297 does not wrap to 1. -/
theorem test_absorb_no_wrap :
    nextHas (exec (.absorb [0, 0, 0, 0, 0, 0, 0, 0, 0, 0] 0xFFFFFFFF 2) afterAbc) (fun t =>
      t.CUR = 3 && t.responses = [⟨.outOfRange, []⟩]) = true := by decide

/-- V10.3: FINALIZE in CONFIGURED. -/
theorem test_finalize_configured :
    nextHas (exec .finalize { afterAbc with PHASE := .configured }) (fun t =>
      t.PHASE = .configured && t.responses = [⟨.invalidState, []⟩]) = true := by decide

/-- V9.15: with OUTLEN 0 the response is `OK` with an empty payload and the block is FINALIZED. -/
theorem test_finalize_empty :
    nextHas (exec .finalize { absorbingAt 0 0x06 [] with OUTLEN := 0 }) (fun t =>
      t.PHASE = .finalized && t.responses = [⟨.ok, []⟩]) = true := by decide +kernel

/-- R110's example: `S[8..15]` = 01 to 08. -/
theorem test_loadlane_little_endian :
    nextHas (exec (.loadlane 1 0) (engineState
      [(8, 1), (9, 2), (10, 3), (11, 4), (12, 5), (13, 6), (14, 7), (15, 8)] 0)) (fun t =>
      t.results = [.lane 0x0807060504030201]) = true := by decide +kernel

/-- V8.2: SAVELANE(3,1, 0123456789ABCDEF) writes `S[64..71]`. -/
theorem test_savelane_offset :
    nextHas (exec (.savelane 3 1 0x0123456789ABCDEF) (engineState [] 0)) (fun t =>
      t.S.readList 64 8 = [0xEF, 0xCD, 0xAB, 0x89, 0x67, 0x45, 0x23, 0x01]) = true := by decide +kernel

/-- R112's example: `S[32..39]` = FF 00 FF 00 00 00 00 80. -/
theorem test_xorlane_bytes :
    nextHas (exec (.xorlane 4 0 0x80000000000000FF) (engineState [(32, 0xFF), (34, 0xFF), (39, 0x80)] 0)) (fun t =>
      t.S = [(34, 0xFF)]) = true := by decide +kernel

/-- V2.1: E2 -> 0 -> B5. -/
theorem test_lfsrstep_feedback :
    nextHas (exec .lfsrstep (engineState [] 0xE2)) (fun t => t.LFSR = 0xB5 && t.results = [.bit 0]) = true := by decide

/-- R121's corner case: 0xFF gives bit 1 and 0x8F. -/
theorem test_lfsrstep_all_ones :
    nextHas (exec .lfsrstep (engineState [] 0xFF)) (fun t => t.LFSR = 0x8F && t.results = [.bit 1]) = true := by decide

/-- V3.2: the rotation by 1 wraps. -/
theorem test_theta_wraps :
    nextHas (exec .theta (engineState (laneCells 0 0 0x8000000000000000) 0)) (fun t =>
      loadLane t.S 0 0 = 0x8000000000000000 && loadLane t.S 1 3 = 0x8000000000000000 && loadLane t.S 4 2 = 1
        && loadLane t.S 2 2 = 0) = true := by decide +kernel

/-- V4.2 (b): lane (2,1) goes to (1,2) rotated by 6. -/
theorem test_rhopi_rotates :
    nextHas (exec .rhopi (engineState (laneCells 2 1 0x8000000000000001) 0)) (fun t =>
      loadLane t.S 1 2 = 0x60 && loadLane t.S 2 1 = 0) = true := by decide +kernel

/-- V4.2 (c): the walk's last row, lane (1,1) to (1,0) rotated by 44. -/
theorem test_rhopi_last_row :
    nextHas (exec .rhopi (engineState (laneCells 1 1 0x100000) 0)) (fun t => loadLane t.S 1 0 = 1) = true := by
  decide +kernel

/-- Row 0 of V5.1. -/
def chiRowCells : Memory :=
  saveLane (saveLane (saveLane (saveLane (laneCells 0 0 0xFF) 1 0 0xF0F) 2 0 0x3333) 3 0 0x5555) 4 0 0xFFFFFFFFFFFFFFFF

/-- V5.1: lane 4 tells a missing snapshot (B4FF) from the row on entry (F0FF). -/
theorem test_chi_snapshot :
    nextHas (exec .chi (engineState chiRowCells 0)) (fun t =>
      loadLane t.S 0 0 = 0x30CF && loadLane t.S 2 0 = 0xFFFFFFFFFFFF9999 && loadLane t.S 4 0 = 0xFFFFFFFFFFFFF0FF) = true := by
  decide +kernel

/-- V6.0 (c): the constant is XORed, not ORed, and the generator advances seven times. -/
theorem test_iota_xors :
    nextHas (exec .iota (engineState (laneCells 0 0 0xFFFFFFFFFFFFFFFF) 0x1A)) (fun t =>
      loadLane t.S 0 0 = 0x7FFFFFFF7FFF7FFF && t.LFSR = 0xDF) = true := by decide +kernel

/-- V6.1: the first round on the all-zero state. -/
theorem test_round_zero :
    nextHas (exec .round (engineState [] 0x01)) (fun t => t.S.read 0 = 1 && t.LFSR = 0x80) = true := by decide +kernel

/-- V2.3: the generator after one permutation, whatever it was before. -/
theorem test_keccakf_generator :
    nextHas (exec .keccakf (engineState [] 0x55)) (fun t => t.LFSR = 0x8E) = true := by decide +kernel

/-- R92, V10.3: a preset on a configured block. -/
theorem test_digest224_configured :
    nextHas (exec .digest224 afterAbc) (fun t => t.RATE = 1088 && t.responses = [⟨.invalidState, []⟩]) = true := by decide

theorem test_digest256_rate : nextHas (exec .digest256 State.reset) (fun t => rateBytes t = 136) = true := by decide

theorem test_digest384_rate : nextHas (exec .digest384 State.reset) (fun t => rateBytes t = 104) = true := by decide

theorem test_digest512_rate : nextHas (exec .digest512 State.reset) (fun t => rateBytes t = 72) = true := by decide

/-- R92: the whole buffer. -/
theorem test_absorbBuf_whole :
    nextHas (exec (.absorbBuf [0x61, 0x62, 0x63]) (absorbingAt 0 0x06 [])) (fun t => t.S = afterAbc.S && t.CUR = 3) = true := by
  decide +kernel

/-- Log entry 6: the word of a table row runs as the first operation after reset. -/
theorem test_fetch_word :
    decodeTableWord 8 0b00 = some (.construct 0 0 0 0) ∧ decodeTableWord 8 0b1001 = some .keccakf ∧
    decodeTableWord 4 0b0011 = some .lfsrstep ∧
    nextHas (step (State.reset.withFetchWord 8 1)) (fun t => t.responses = [⟨.invalidState, []⟩] && t.pending = []) = true := by
  decide

/-! ## Witnesses: for each statement with hypotheses, states and operands that meet them, at the boundaries of each clause -/

theorem witness_EncodedOperationsDecode : (Instr.absorb [0xFF] 0xFFFFFFFF 1).wellFormed = true := by decide

theorem witness_DecodedRecordsAreEncodings : decode .uop [2, 4, 4, 0, 0, 0, 0, 0, 0, 0, 0] = .ok (.xorlane 4 4 0) := by decide

/-- Each clause: `op` 3, `uop` 10 and 15, x = 5 and y = 7, and a pending record that names nothing. -/
theorem witness_ReservedEncodingsRefused :
    (3 : Byte).toNat < 4 ∧ 10 ≤ (10 : Byte).toNat ∧ (15 : Byte).toNat ≤ 15 ∧ (2 : Byte).toNat ≤ 2 ∧
    (5 ≤ (5 : Byte).toNat ∧ (5 : Byte).toNat ≤ 7) ∧ (5 ≤ (7 : Byte).toNat ∧ (7 : Byte).toNat ≤ 7) ∧
    (State.reset.present (.operation .uop [10])).pending = [.operation .uop [10]] ∧
    decode .uop [10] = .error .reservedUop := by decide

theorem witness_StepRunsTheDecodedOperation :
    (afterAbc.present (.operation .cmd [3])).pending = [.operation .cmd [3]] ∧ decode .cmd [3] = .ok .finalize ∧
    State.reset.pending = [] := by decide

theorem witness_OnlyResetUnconfigures :
    (afterAbc.present .reset).pending = [.reset] ∧ step State.reset = .next State.reset ∧
    State.reset.PHASE = .unconfigured := ⟨rfl, rfl, rfl⟩

/-- The state of the two step invariants' witnesses: CUR at its last value, an empty ABSORB pending. -/
def lastByteOpen : State :=
  (absorbingAt 135 0x86 []).present (.operation .cmd [2, 0, 0, 0, 0, 0, 0, 0, 0, 0, 0, 0, 0])

theorem lastByteOpen_steps : step lastByteOpen = .next ((lastByteOpen.setPending []).respond .ok []) := by rfl

theorem witness_StepKeepsTheInvariant :
    lastByteOpen.Inv ∧ step lastByteOpen = .next ((lastByteOpen.setPending []).respond .ok []) :=
  ⟨by decide, lastByteOpen_steps⟩

theorem witness_ParametersStayFixed :
    step lastByteOpen = .next ((lastByteOpen.setPending []).respond .ok []) ∧ lastByteOpen.PHASE ≠ .unconfigured ∧
    ∀ rest, lastByteOpen.pending ≠ .reset :: rest :=
  ⟨lastByteOpen_steps, by decide, fun _ h => by cases h⟩

theorem witness_NoAccessFallsOutsideState :
    (absorbingAt 135 0x06 []).Inv ∧ (absorbingAt 135 0x06 []).PHASE = .absorbing ∧
    step (State.reset.present (.operation .uop [15])) = .refused (.noMeaning .reservedUop) :=
  ⟨by decide, rfl, rfl⟩

theorem witness_HostDrivenBlockNeverStops : lastByteOpen.Inv ∧ lastByteOpen.hostDriven = true := by decide

/-- The cells of R35 and each way a command ends: turned away by the phase, by CONSTRUCT's and by ABSORB's operands, and
carried out. -/
theorem witness_PhaseTableDecidesCommands :
    Instr.finalize.format = .cmd ∧ Instr.finalize.wellFormed = true ∧ State.reset.Inv ∧ afterAbc.Inv ∧
    phaseTable State.reset.PHASE Instr.finalize.expand = none ∧
    operandsRejected (.construct 0 1600 0 0) = some .invalidParameter ∧
    operandsRejected (.absorb [] 0 1) = some .outOfRange ∧
    phaseTable afterAbc.PHASE Instr.finalize.expand = some .finalized ∧ operandsRejected Instr.finalize.expand = none ∧
    exec .finalize State.reset = .next (State.reset.respond .invalidState []) :=
  ⟨rfl, rfl, by decide, by decide, rfl, by decide, by decide, rfl, rfl, rfl⟩

theorem witness_EveryCommandAnswersOnce :
    Instr.initialise.format = .cmd ∧ State.reset.Inv ∧ Instr.lfsrstep.format = .uop ∧
    exec .lfsrstep State.reset = .next ((State.reset.setLFSR 0).giveResult (.bit 0)) :=
  ⟨rfl, by decide, rfl, rfl⟩

/-- A failed command's outcome, and an operation after it that completes. -/
theorem witness_ExceptionsWriteNothing :
    exec .initialise State.reset = .next (State.reset.respond .invalidState []) ∧
    (State.reset.respond .invalidState []).responses = State.reset.responses ++ [⟨.invalidState, []⟩] ∧
    Status.invalidState ≠ .ok := ⟨rfl, rfl, by decide⟩

theorem witness_ErrorsAreNotLatched :
    exec .initialise State.reset = .next (State.reset.respond .invalidState []) ∧
    exec .finalize State.reset = .next (State.reset.respond .invalidState []) ∧ Status.invalidState ≠ .ok :=
  ⟨rfl, rfl, by decide⟩

/-- Each clause: the two ends of the legal rates, a sum off by eight, a rate of 0, a configured block. -/
theorem witness_ConstructConfigures :
    State.reset.PHASE = .unconfigured ∧ legalParameters 8 1592 ∧ legalParameters 1600 0 ∧
    ¬ legalParameters 1088 520 ∧ ¬ legalParameters 0 1600 ∧ afterAbc.PHASE ≠ .unconfigured := by
  unfold legalParameters; decide

theorem witness_PresetsConfigure : State.reset.PHASE = .unconfigured ∧ ([] : List Byte).length < 2 ^ 32 := by decide

theorem witness_InitializeClears :
    afterAbc.PHASE ≠ .unconfigured ∧ afterAbc.S.wf = true ∧ State.reset.PHASE = .unconfigured := by decide

/-- Each clause: a configured block, a range one byte too long, an empty range at the buffer's end. -/
theorem witness_AbsorbTurnedAwayOrEmpty :
    State.reset.PHASE ≠ .absorbing ∧ afterAbc.PHASE = .absorbing ∧
    [(1 : Byte), 2].length < (1 : BitVec 32).toNat + (2 : BitVec 32).toNat ∧
    (2 : BitVec 32).toNat ≤ [(1 : Byte), 2].length := by decide

theorem witness_AbsorbCompletes :
    (absorbingAt 135 0x06 []).Inv ∧ (absorbingAt 135 0x06 []).PHASE = .absorbing ∧
    (1 : BitVec 32).toNat + (1 : BitVec 32).toNat ≤ [(1 : Byte), 2].length := by decide

/-- CUR + length = R − 1, the last value inside the block. -/
theorem witness_AbsorbWithinABlock :
    (absorbingAt 134 0x06 []).Inv ∧ (absorbingAt 134 0x06 []).PHASE = .absorbing ∧
    (0 : BitVec 32).toNat + (1 : BitVec 32).toNat ≤ [(1 : Byte)].length ∧
    (absorbingAt 134 0x06 []).CUR.toNat + (1 : BitVec 32).toNat < (absorbingAt 134 0x06 []).RATE.toNat / 8 := by decide

theorem witness_AbsorbFillsABlock :
    (absorbingAt 135 0x06 []).Inv ∧ (absorbingAt 135 0x06 []).PHASE = .absorbing ∧
    (0 : BitVec 32).toNat + (1 : BitVec 32).toNat ≤ [(1 : Byte)].length ∧
    (absorbingAt 135 0x06 []).CUR.toNat + (1 : BitVec 32).toNat = (absorbingAt 135 0x06 []).RATE.toNat / 8 := by decide

theorem witness_ChunkingHasNoEffect :
    afterAbc.Inv ∧ afterAbc.PHASE = .absorbing ∧
    (1 : BitVec 32).toNat + (1 : BitVec 32).toNat ≤ [(1 : Byte), 2].length := by decide

theorem witness_MessagesAreAbsorbedBlockwise : afterAbc.Inv ∧ afterAbc.PHASE ≠ .unconfigured := by decide

/-- The padding cases of R156: (a) with the cursor in the block, (b) and (c) with it at R − 1, the suffix's top bit clear
and set, (d) with R = 1; and a block that is not absorbing. -/
theorem witness_FinalizeReturnsTheDigest :
    (afterAbc.Inv ∧ afterAbc.CUR.toNat + 1 ≠ afterAbc.RATE.toNat / 8) ∧
    ((absorbingAt 135 0x06 []).Inv ∧ (absorbingAt 135 0x06 []).CUR.toNat + 1 = (absorbingAt 135 0x06 []).RATE.toNat / 8 ∧
      (absorbingAt 135 0x06 []).SUFFIX.getLsbD 7 = false) ∧
    ((absorbingAt 135 0x86 []).Inv ∧ (absorbingAt 135 0x86 []).SUFFIX.getLsbD 7 = true) ∧
    ({ absorbingAt 0 0x06 [] with RATE := 8, CAPACITY := 1592 } : State).Inv ∧ State.reset.PHASE ≠ .absorbing := by decide

theorem witness_DigestDependsOnMessageAndParametersOnly :
    afterAbc.Inv ∧ (absorbingAt 135 0x06 []).Inv ∧ afterAbc.PHASE ≠ .unconfigured ∧
    (absorbingAt 135 0x06 []).PHASE ≠ .unconfigured ∧ afterAbc.RATE = (absorbingAt 135 0x06 []).RATE ∧
    afterAbc.SUFFIX = (absorbingAt 135 0x06 []).SUFFIX ∧ afterAbc.OUTLEN = (absorbingAt 135 0x06 []).OUTLEN ∧
    ([[1], [], [2]] : List (List Byte)).flatten = ([[1, 2]] : List (List Byte)).flatten := by decide

theorem witness_ContentsOfStateSteerNothing : afterAbc.Inv ∧ Memory.wf [(199, 0xFF)] = true := by decide

/-- The last lane's last byte: a = 199 is byte 7 of lane (4,4). -/
theorem witness_LoadlaneReturnsTheLane : 199 / 8 = (4 : Coord).val + 5 * (4 : Coord).val ∧ 7 < 8 ∧ 63 < 64 := by decide

theorem witness_SavelaneWritesTheLane : afterAbc.S.wf = true := by decide

theorem witness_XorlaneXorsEachByte : (engineState [(0, 1), (199, 0xFF)] 0).S.wf = true := by decide

theorem witness_ByteAndLaneViewsAreOneStorage : 199 < 200 ∧ 63 < 64 := by decide

theorem witness_GeneratorSequence : (engineState [] 0x01).LFSR = 0x01 := by rfl

/-- Each clause: a state at the seed, and one at the value on entry of the first and of the last round. -/
theorem witness_RoundConstantTable :
    (engineState [] 0x01).LFSR = 0x01 ∧ (constantsTable[0]?).map ConstantRow.lfsrIn = some (engineState [] 0x01).LFSR ∧
    (constantsTable[23]?).map ConstantRow.lfsrIn = some (engineState [] 0x44).LFSR := by decide

theorem witness_KeccakfIsSeedAndRounds :
    afterAbc.S = (engineState afterAbc.S 7).S ∧ exec .keccakf afterAbc = .next (permute afterAbc) ∧
    exec .keccakf (engineState afterAbc.S 7) = .next (permute (engineState afterAbc.S 7)) := ⟨rfl, rfl, rfl⟩

theorem witness_UnitOperationsIgnoreTheDriver :
    Instr.iota.format = .uop ∧ afterAbc.S = (engineState afterAbc.S 0).S ∧ afterAbc.LFSR = (engineState afterAbc.S 0).LFSR := by
  decide

end Sys2Proof.Tests
end

section
/-! PROOFS. The rules that every proof about a step uses: the equations of `step`, what the driver's shared
operations leave unchanged and when they complete, and one inversion lemma that says everything a completed
operation can have done to the block. -/

namespace Sys2Proof.Proofs

open Sys2Proof.Machine

/-! ## The equations of `step` -/

theorem step_silent {s : State} (h : s.pending = []) : step s = .next s := by
  rw [step, nextRequest_nil s h]

theorem step_reset {s : State} {rest : List Request} (h : s.pending = .reset :: rest) :
    step s = .next (applyReset (s.setPending rest)) := by
  rw [step, nextRequest_cons s _ rest h]

theorem step_operation {s : State} {f : Format} {record : List Byte} {rest : List Request} {i : Instr}
    (h : s.pending = .operation f record :: rest) (hd : decode f record = .ok i) :
    step s = exec i (s.setPending rest) := by
  simp only [step, nextRequest_cons s _ rest h, hd]

theorem step_undecodable {s : State} {f : Format} {record : List Byte} {rest : List Request} {e : DecodeError}
    (h : s.pending = .operation f record :: rest) (hd : decode f record = .error e) :
    step s = .refused (.noMeaning e) := by
  simp only [step, nextRequest_cons s _ rest h, hd]

/-- Everything a completed step can be: silence, a reset event, or one decoded operation. -/
theorem step_next_cases {s t : State} (h : step s = .next t) :
    (s.pending = [] ∧ t = s) ∨
    (∃ rest, s.pending = .reset :: rest ∧ t = applyReset (s.setPending rest)) ∨
    (∃ f record rest i, s.pending = .operation f record :: rest ∧ decode f record = .ok i ∧
      exec i (s.setPending rest) = .next t) := by
  match hp : s.pending with
  | [] =>
    rw [step_silent hp] at h
    exact .inl ⟨rfl, (Host.Outcome.next.inj h).symm⟩
  | .reset :: rest =>
    rw [step_reset hp] at h
    exact .inr (.inl ⟨rest, rfl, (Host.Outcome.next.inj h).symm⟩)
  | .operation f record :: rest =>
    cases hd : decode f record with
    | ok i =>
      rw [step_operation hp hd] at h
      exact .inr (.inr ⟨f, record, rest, i, rfl, hd, h⟩)
    | error e =>
      rw [step_undecodable hp hd] at h
      cases h

/-! ## Operations that write `S` and LFSR only -/

/-- `t` is `s` with other contents of `S` and LFSR, still in canonical form if `s` was. -/
def EngineOnly (s t : State) : Prop :=
  t = { s with S := t.S, LFSR := t.LFSR } ∧ (s.S.wf = true → t.S.wf = true)

theorem EngineOnly.trans {s t u : State} (h : EngineOnly s t) (h' : EngineOnly t u) : EngineOnly s u := by
  refine ⟨h'.1.trans ?_, fun w => h'.2 (h.2 w)⟩
  rw [h.1]

theorem engineOnly_permute (s : State) : EngineOnly s (permute s) := ⟨rfl, wf_keccakf⟩

theorem engineOnly_of_xorByte {a : Nat} {v : Byte} {s t : State} (h : xorByte a v s = .ok t) :
    EngineOnly s t := by
  obtain ⟨ha, rfl⟩ := xorByte_eq_ok.mp h
  exact ⟨rfl, fun w => Memory.wf_write w ha _⟩

theorem engineOnly_of_padLastByte {s t : State} (h : padLastByte s = .ok t) : EngineOnly s t := by
  unfold padLastByte at h
  split at h
  · cases h
  · exact engineOnly_of_xorByte h

theorem squeeze_wf (r : Nat) : ∀ (fuel rem : Nat) (s : State), s.S.wf = true → (squeeze r fuel rem s).2.S.wf = true
  | 0, _, _, w => w
  | fuel + 1, rem, s, w => by
    rw [squeeze_turn]
    split_ifs
    · exact w
    · exact w
    · exact squeeze_wf r fuel _ _ (wf_keccakf w)

theorem engineOnly_squeeze (r fuel rem : Nat) (s : State) : EngineOnly s (squeeze r fuel rem s).2 :=
  ⟨squeeze_frame r fuel rem s, squeeze_wf r fuel rem s⟩

/-- FINALIZE's step 2 (R155, R222): the permutation that comes only if the suffix fills the block. -/
def permuteIfFilled (s : State) : State := if suffixFillsBlock s then permute s else s

theorem engineOnly_permuteIfFilled (s : State) : EngineOnly s (permuteIfFilled s) := by
  unfold permuteIfFilled
  split
  · exact engineOnly_permute s
  · exact ⟨rfl, id⟩

/-- Steps 1 to 4 of FINALIZE in a row (R155): the suffix, the extra permutation, the final bit, the permutation. -/
theorem padAndPermute_eq_ok {s t : State} :
    padAndPermute s = .ok t ↔ ∃ s1 s3, xorByte s.CUR.toNat s.SUFFIX s = .ok s1 ∧
      padLastByte (permuteIfFilled s1) = .ok s3 ∧ permute s3 = t := by
  unfold padAndPermute permuteIfFilled
  cases xorByte s.CUR.toNat s.SUFFIX s with
  | error f => simp
  | ok s1 =>
    simp only [Except.ok.injEq, exists_and_left, exists_eq_left']
    cases padLastByte (if suffixFillsBlock s1 then permute s1 else s1) <;> simp

theorem engineOnly_of_padAndPermute {s t : State} (h : padAndPermute s = .ok t) : EngineOnly s t := by
  obtain ⟨s1, s3, h1, h3, rfl⟩ := padAndPermute_eq_ok.mp h
  exact ((engineOnly_of_xorByte h1).trans (engineOnly_permuteIfFilled s1)).trans
    ((engineOnly_of_padLastByte h3).trans (engineOnly_permute s3))

/-! ## The driver completes when the cursor is inside the block -/

/-- R40 (I-c) with the bound on the rate that (I-b) gives: the cursor is inside the rate portion and that inside `S`. -/
def CursorInside (s : State) : Prop := s.CUR.toNat < rateBytes s ∧ rateBytes s ≤ Config.stateBytes

theorem rateBytes_pos {s : State} (hi : s.Inv) (hp : s.PHASE ≠ .unconfigured) : 0 < rateBytes s := by
  obtain ⟨-, hpar, -⟩ := hi
  obtain ⟨-, -, h8⟩ := hpar hp
  rw [rateBytes_eq]
  omega

theorem rateBytes_le {s : State} (hi : s.Inv) (hp : s.PHASE ≠ .unconfigured) :
    rateBytes s ≤ Config.stateBytes := by
  obtain ⟨-, hpar, -⟩ := hi
  obtain ⟨hsum, -, -⟩ := hpar hp
  rw [rateBytes_eq, Config.stateBytes]
  omega

theorem cursorInside_of_inv {s : State} (hi : s.Inv) (hp : s.PHASE = .absorbing) : CursorInside s := by
  have ⟨_, _, hcur⟩ := hi
  exact ⟨hcur hp, rateBytes_le hi (by simp [hp])⟩

/-- The cursor never wraps in its 8 bits: the rate portion has at most 200 bytes. -/
theorem cursor_succ_toNat {s : State} (h : CursorInside s) : (s.CUR + 1).toNat = s.CUR.toNat + 1 := by
  obtain ⟨hc, hr⟩ := h
  have hlt : s.CUR.toNat < 200 := Nat.lt_of_lt_of_le hc hr
  bv_omega

/-- AbsorbByte either starts a new block at cursor 0 or moves the cursor to a byte that is still inside the block. -/
theorem absorbByte_completes (b : Byte) {s : State} (h : CursorInside s) :
    ∃ t, absorbByte b s = .ok t ∧ CursorInside t := by
  have hsucc := cursor_succ_toNat h
  obtain ⟨hc, hr⟩ := h
  rw [absorbByte, xorByte_inside (by omega)]
  by_cases hfull : (s.CUR + 1).toNat = rateBytes s
  · refine ⟨(permute (afterByte b s)).setCUR 0, if_pos hfull, ?_⟩
    simpa [CursorInside, rateBytes_eq, afterByte] using And.intro (Nat.zero_lt_of_lt hc) hr
  · have hnext : (s.CUR + 1).toNat < rateBytes s := by omega
    refine ⟨afterByte b s, if_neg hfull, ?_⟩
    simpa [CursorInside, rateBytes_eq, afterByte] using And.intro hnext hr

theorem absorbBytes_completes (bs : List Byte) {s : State} (h : CursorInside s) :
    ∃ t, absorbBytes bs s = .ok t ∧ CursorInside t := by
  induction bs generalizing s with
  | nil => exact ⟨s, absorbBytes_nil s, h⟩
  | cons b bs ih =>
    obtain ⟨u, hu, hcu⟩ := absorbByte_completes b h
    rw [absorbBytes_cons, hu]
    exact ih hcu

/-- Both bytes that FINALIZE pads are inside the rate portion: `S[CUR]` and `S[R − 1]` (R155). -/
theorem padAndPermute_completes {s : State} (h : CursorInside s) : ∃ t, padAndPermute s = .ok t := by
  obtain ⟨hc, hr⟩ := h
  have h1 := xorByte_inside (Nat.lt_of_lt_of_le hc hr) s.SUFFIX s
  have hrate := rateBytes_congr (congrArg State.RATE
    ((engineOnly_of_xorByte h1).trans (engineOnly_permuteIfFilled _)).1)
  have h3 := padLastByte_inside (hrate ▸ Nat.zero_lt_of_lt hc) (hrate ▸ hr)
  exact ⟨_, padAndPermute_eq_ok.mpr ⟨_, _, h1, h3, rfl⟩⟩

/-! ## What an operation can do -/

/-- Everything an operation that completes can have done to the block, one constructor for each kind of outcome.
The interface's queue and the count of reset events are written by none. -/
inductive Effect (s : State) : State → Prop where
  /-- A command that raised an exception (R188). -/
  | rejected {e : Status} : e ≠ .ok → Effect s (s.respond e [])
  /-- CONSTRUCT carried out (R150). -/
  | configured {r c : BitVec 16} {x : Byte} {o : BitVec 32} :
      s.PHASE = .unconfigured → parametersLegal r c = true →
      Effect s (((s.setParameters r c x o).setPHASE .configured).respond .ok [])
  /-- INITIALIZE carried out (R151). -/
  | cleared : s.PHASE ≠ .unconfigured →
      Effect s ((((s.setS (clearState s.S)).setCUR 0).setPHASE .absorbing).respond .ok [])
  /-- ABSORB carried out on the bytes it selects (R152). -/
  | absorbed {bs : List Byte} {u : State} : s.PHASE = .absorbing → absorbBytes bs s = .ok u →
      Effect s (u.respond .ok [])
  /-- FINALIZE carried out (R155). -/
  | finalized {u : State} {digest : List Byte} : s.PHASE = .absorbing → EngineOnly s u →
      Effect s ((u.setPHASE .finalized).respond .ok digest)
  /-- A unit operation, with the results it adds (R82, R138). -/
  | unit {m : Memory} {l : Byte} {results new : List UnitResult} : (s.S.wf = true → m.wf = true) →
      results = s.results ++ new → Effect s { s with S := m, LFSR := l, results := results }

theorem construct_effect {r c : BitVec 16} {x : Byte} {o : BitVec 32} {s t : State}
    (h : construct r c x o s = .next t) : Effect s t := by
  obtain ⟨-, hc⟩ | ⟨-, -, hc⟩ | ⟨hp, hl, hc⟩ := construct_cases r c x o s
  · cases hc.symm.trans h
    exact .rejected (by decide)
  · cases hc.symm.trans h
    exact .rejected (by decide)
  · cases hc.symm.trans h
    exact .configured hp hl

theorem initialise_effect {s t : State} (h : execInitialise s = .next t) : Effect s t := by
  unfold execInitialise at h
  split at h
  · cases h
    exact .rejected (by decide)
  · next hp =>
    obtain rfl := Host.Outcome.next.inj h
    exact .cleared hp

theorem absorbCommand_effect {buf : List Byte} {offset length : Nat} {s t : State}
    (h : absorbCommand buf offset length s = .next t) : Effect s t := by
  obtain ⟨-, hc⟩ | ⟨-, -, hc⟩ | ⟨hp, -, hfault, hok⟩ := absorbCommand_cases buf offset length s
  · cases hc.symm.trans h
    exact .rejected (by decide)
  · cases hc.symm.trans h
    exact .rejected (by decide)
  · cases hu : absorbBytes (bufferSlice buf offset length) s with
    | error f => cases (hfault f hu).symm.trans h
    | ok u =>
      cases (hok u hu).symm.trans h
      exact .absorbed hp hu

theorem finalize_effect {s t : State} (h : execFinalize s = .next t) : Effect s t := by
  unfold execFinalize at h
  split at h
  · cases h
    exact .rejected (by decide)
  · next hp =>
    split at h
    · cases h
    · next u hu =>
      cases h
      exact .finalized (not_not.mp hp) ((engineOnly_of_padAndPermute hu).trans (engineOnly_squeeze _ _ _ u))

/-- The inversion lemma of `exec`: an operation that completes has one of the listed effects. -/
theorem exec_effect {i : Instr} {s t : State} (h : exec i s = .next t) : Effect s t := by
  cases i with
  | construct r c x o => exact construct_effect h
  | initialise => exact initialise_effect h
  | absorb buf off len => exact absorbCommand_effect h
  | finalize => exact finalize_effect h
  | loadlane x y => cases h; exact .unit id rfl
  | savelane x y v => cases h; exact .unit (wf_saveLane · x y v) (List.append_nil _).symm
  | xorlane x y v => cases h; exact .unit (wf_xorLane · x y v) (List.append_nil _).symm
  | lfsrstep => cases h; exact .unit id rfl
  | theta => cases h; exact .unit wf_theta (List.append_nil _).symm
  | rhopi => cases h; exact .unit wf_rhopi (List.append_nil _).symm
  | chi => cases h; exact .unit wf_chi (List.append_nil _).symm
  | iota => cases h; exact .unit (fun w => wf_iota (e := (s.S, s.LFSR)) w) (List.append_nil _).symm
  | round => cases h; exact .unit (wf_keccakRound (s.S, s.LFSR)) (List.append_nil _).symm
  | keccakf => cases h; exact .unit wf_keccakf (List.append_nil _).symm
  | digest224 => exact construct_effect h
  | digest256 => exact construct_effect h
  | digest384 => exact construct_effect h
  | digest512 => exact construct_effect h
  | absorbBuf buf => exact absorbCommand_effect h

theorem Effect.pending_eq {s t : State} (h : Effect s t) : t.pending = s.pending := by
  cases h with
  | rejected | configured | cleared | unit => simp
  | absorbed _ hu => exact (congrArg State.pending (absorbBytes_frame hu) :)
  | finalized _ hu => exact (congrArg State.pending hu.1 :)

/-- R40 (I-d): CONSTRUCT alone writes the parameters, and only in UNCONFIGURED. -/
theorem Effect.parameters_eq {s t : State} (h : Effect s t) (hp : s.PHASE ≠ .unconfigured) :
    t.RATE = s.RATE ∧ t.CAPACITY = s.CAPACITY ∧ t.SUFFIX = s.SUFFIX ∧ t.OUTLEN = s.OUTLEN := by
  cases h with
  | configured hq _ => exact absurd hq hp
  | rejected | cleared | unit => simp
  | absorbed _ hu =>
    rw [absorbBytes_frame hu]
    exact ⟨rfl, rfl, rfl, rfl⟩
  | finalized _ hu =>
    rw [hu.1]
    exact ⟨rfl, rfl, rfl, rfl⟩

/-! ## The invariant of R40 -/

theorem applyReset_inv (s : State) : (applyReset s).Inv :=
  ⟨wf_freeMemory s.freeIndex, fun h => absurd rfl h, fun h => by cases h⟩

theorem legal_of_parametersLegal {r c : BitVec 16} (h : parametersLegal r c = true) :
    r.toNat + c.toNat = 1600 ∧ r.toNat % 8 = 0 ∧ 8 ≤ r.toNat := by
  simpa [parametersLegal, and_assoc] using h

/-- A configured block whose RATE and CAPACITY are left alone has legal parameters still (R40 I-b), so the invariant
is a matter of `S` and the cursor. -/
theorem inv_of_sameParameters {s t : State} (hi : s.Inv) (hp : s.PHASE ≠ .unconfigured) (hw : t.S.wf = true)
    (hr : t.RATE = s.RATE) (hc : t.CAPACITY = s.CAPACITY) (hcur : t.PHASE = .absorbing → t.CUR.toNat < rateBytes t) :
    t.Inv := by
  obtain ⟨-, hpar, -⟩ := hi
  exact ⟨hw, fun _ => by rw [hr, hc]; exact hpar hp, hcur⟩

theorem Effect.keeps_inv {s t : State} (h : Effect s t) (hi : s.Inv) : t.Inv := by
  cases h with
  | rejected => exact hi
  | configured _ hl => exact ⟨hi.1, fun _ => legal_of_parametersLegal hl, fun h => by cases h⟩
  | cleared hp =>
    have hpos := rateBytes_pos hi hp
    exact inv_of_sameParameters hi hp (by simpa using wf_clearState hi.1) (by simp) (by simp)
      fun _ => by simpa [rateBytes_eq] using hpos
  | @absorbed bs u hp hu =>
    obtain ⟨u', hu', hcur, -⟩ := absorbBytes_completes bs (cursorInside_of_inv hi hp)
    cases hu.symm.trans hu'
    have hframe := absorbBytes_frame hu
    exact inv_of_sameParameters hi (by simp [hp]) (absorbBytes_wf hu hi.1 :)
      (congrArg State.RATE hframe :) (congrArg State.CAPACITY hframe :) fun _ => hcur
  | @finalized u _ hp hu =>
    exact inv_of_sameParameters hi (by simp [hp]) (hu.2 hi.1)
      (congrArg State.RATE hu.1 :) (congrArg State.CAPACITY hu.1 :) fun h => by cases h
  | unit hm _ => exact ⟨hm hi.1, hi.2⟩

/-! ## Every operation completes under the invariant -/

theorem construct_completes (r c : BitVec 16) (x : Byte) (o : BitVec 32) (s : State) :
    ∃ t, construct r c x o s = .next t := by
  obtain ⟨-, hc⟩ | ⟨-, -, hc⟩ | ⟨-, -, hc⟩ := construct_cases r c x o s <;> exact ⟨_, hc⟩

theorem initialise_completes (s : State) : ∃ t, execInitialise s = .next t := by
  unfold execInitialise
  split <;> exact ⟨_, rfl⟩

theorem absorbCommand_completes (buf : List Byte) (offset length : Nat) {s : State} (hi : s.Inv) :
    ∃ t, absorbCommand buf offset length s = .next t := by
  obtain ⟨-, hc⟩ | ⟨-, -, hc⟩ | ⟨hp, -, -, hok⟩ := absorbCommand_cases buf offset length s
  · exact ⟨_, hc⟩
  · exact ⟨_, hc⟩
  · obtain ⟨u, hu, -⟩ := absorbBytes_completes (bufferSlice buf offset length) (cursorInside_of_inv hi hp)
    exact ⟨_, hok u hu⟩

theorem finalize_completes {s : State} (hi : s.Inv) : ∃ t, execFinalize s = .next t := by
  unfold execFinalize
  split
  · exact ⟨_, rfl⟩
  · next hp =>
    obtain ⟨u, hu⟩ := padAndPermute_completes (cursorInside_of_inv hi (not_not.mp hp))
    rw [hu]
    exact ⟨_, rfl⟩

/-- R62: the only stop of an operation is an access outside `S`, which the invariant excludes. -/
theorem exec_completes (i : Instr) {s : State} (hi : s.Inv) : ∃ t, exec i s = .next t := by
  cases i with
  | construct r c x o => exact construct_completes r c x o s
  | initialise => exact initialise_completes s
  | absorb buf off len => exact absorbCommand_completes buf off.toNat len.toNat hi
  | finalize => exact finalize_completes hi
  | digest224 | digest256 | digest384 | digest512 => exact construct_completes _ _ _ _ s
  | absorbBuf buf => exact absorbCommand_completes buf 0 buf.length hi
  | loadlane | savelane | xorlane | lfsrstep | theta | rhopi | chi | iota | round | keccakf => exact ⟨_, rfl⟩

end Sys2Proof.Proofs
end

section
/-! PROOFS. The scope of a step: it is the decoded operation and nothing else, a configured block keeps its
parameters, and a block driven by a host only never stops. -/

namespace Sys2Proof.Proofs

open Sys2Proof.Machine

/-- A host's request that is not a reset event is a record that names an operation (R80). -/
theorem decodes_of_fromHost {f : Format} {record : List Byte}
    (h : (Request.operation f record).fromHost = true) : ∃ i, decode f record = .ok i := by
  cases f with
  | uop => cases h
  | cmd =>
    cases hd : decode .cmd record with
    | ok i => exact ⟨i, rfl⟩
    | error e => simp [Request.fromHost, hd] at h

theorem hostDriven_cons {s : State} {r : Request} {rest : List Request} (h : s.pending = r :: rest) :
    s.hostDriven = true ↔ r.fromHost = true ∧ rest.all Request.fromHost = true := by
  rw [State.hostDriven, h, List.all_cons, Bool.and_eq_true]

/-- Settles O5: the equations of `step` for a record that decodes and for a silent host. -/
theorem stepRunsTheDecodedOperation : Obligations.StepRunsTheDecodedOperation :=
  ⟨fun _ _ _ _ _ h hd => step_operation h hd, fun _ h => step_silent h⟩

/-- Settles O9: the step was silent or an operation, and no operation writes the parameters of a configured block. -/
theorem parametersStayFixed : Obligations.ParametersStayFixed := by
  intro s t h hp hreset
  obtain ⟨-, rfl⟩ | ⟨rest, hr, -⟩ | ⟨f, record, rest, i, -, -, hexec⟩ := step_next_cases h
  · exact ⟨rfl, rfl, rfl, rfl⟩
  · exact absurd hr (hreset rest)
  · exact (exec_effect hexec).parameters_eq hp

/-- Settles O11: under the invariant every operation completes, keeps the invariant and leaves the queue alone, so
what is still to be presented is the rest of what the host had. -/
theorem hostDrivenBlockNeverStops : Obligations.HostDrivenBlockNeverStops := by
  intro s hi hh
  match hq : s.pending with
  | [] => exact ⟨s, step_silent hq, hi, hh⟩
  | .reset :: rest =>
    obtain ⟨-, hrest⟩ := (hostDriven_cons hq).mp hh
    exact ⟨_, step_reset hq, applyReset_inv _, hrest⟩
  | .operation f record :: rest =>
    obtain ⟨hfront, hrest⟩ := (hostDriven_cons hq).mp hh
    obtain ⟨i, hd⟩ := decodes_of_fromHost hfront
    have hi' : (s.setPending rest).Inv := hi
    obtain ⟨t, ht⟩ := exec_completes i hi'
    refine ⟨t, (step_operation hq hd).trans ht, (exec_effect ht).keeps_inv hi', ?_⟩
    rw [State.hostDriven, (exec_effect ht).pending_eq]
    exact hrest

end Sys2Proof.Proofs
end

section
/-! PROOFS. The lifecycle of the block: the invariant of R40 at reset and along every step, the only way back to
UNCONFIGURED, and the two ways a step can stop. -/

namespace Sys2Proof.Proofs

open Sys2Proof.Machine

/-! ## The invariant of R40 -/

/-- Settles O7: at reset `S` has no entry and the block is UNCONFIGURED, so (I-b) and (I-c) suppose what is not so. -/
theorem resetMeetsTheInvariant : Obligations.ResetMeetsTheInvariant :=
  ⟨rfl, fun h => absurd rfl h, fun h => by cases h⟩

/-- Settles O8: a silent step keeps the state, a reset event gives a state with the invariant whatever came before, and
every operation keeps it. -/
theorem stepKeepsTheInvariant : Obligations.StepKeepsTheInvariant := by
  intro s t hi h
  obtain ⟨-, rfl⟩ | ⟨rest, -, rfl⟩ | ⟨f, record, rest, i, -, -, hexec⟩ := step_next_cases h
  · exact hi
  · exact applyReset_inv _
  · have hi' : (s.setPending rest).Inv := hi
    exact (exec_effect hexec).keeps_inv hi'

/-! ## The way back to UNCONFIGURED -/

/-- No operation leads to UNCONFIGURED (R35): CONSTRUCT, INITIALIZE and FINALIZE write another phase, and everything else
leaves PHASE alone. -/
theorem Effect.unconfigured_before {s t : State} (h : Effect s t) (ht : t.PHASE = .unconfigured) :
    s.PHASE = .unconfigured := by
  cases h with
  | configured hp _ => exact hp
  | cleared => cases ht
  | finalized => cases ht
  | rejected | unit => exact ht
  | absorbed _ hu => exact (congrArg State.PHASE (absorbBytes_frame hu)).symm.trans ht

/-- Settles O6: the reset event writes PHASE and leaves the interface's lists, and neither a silent step nor an operation
leads to UNCONFIGURED. -/
theorem onlyResetUnconfigures : Obligations.OnlyResetUnconfigures := by
  refine ⟨fun s rest h => ?_, fun s t h ht => ?_, rfl⟩
  · obtain ⟨hwf, -⟩ := applyReset_inv (s.setPending rest)
    exact ⟨_, step_reset h, rfl, rfl, rfl, rfl, hwf⟩
  · obtain ⟨-, rfl⟩ | ⟨rest, hreset, -⟩ | ⟨f, record, rest, i, -, -, hexec⟩ := step_next_cases h
    · exact .inl ht
    · exact .inr ⟨rest, hreset⟩
    · exact .inl ((exec_effect hexec).unconfigured_before ht)

/-! ## The two ways a step stops -/

theorem construct_ne_refused (r c : BitVec 16) (x : Byte) (o : BitVec 32) (s : State) (e : Refusal) :
    construct r c x o s ≠ .refused e := by
  obtain ⟨t, ht⟩ := construct_completes r c x o s
  rw [ht]
  nofun

theorem initialise_ne_refused (s : State) (e : Refusal) : execInitialise s ≠ .refused e := by
  obtain ⟨t, ht⟩ := initialise_completes s
  rw [ht]
  nofun

theorem absorbCommand_ne_refused (buf : List Byte) (offset length : Nat) (s : State) (e : Refusal) :
    absorbCommand buf offset length s ≠ .refused e := by
  obtain ⟨-, hc⟩ | ⟨-, -, hc⟩ | ⟨-, -, hfault, hok⟩ := absorbCommand_cases buf offset length s
  · rw [hc]
    nofun
  · rw [hc]
    nofun
  · cases hu : absorbBytes (bufferSlice buf offset length) s with
    | error f =>
      rw [hfault f hu]
      nofun
    | ok u =>
      rw [hok u hu]
      nofun

theorem finalize_ne_refused (s : State) (e : Refusal) : execFinalize s ≠ .refused e := by
  unfold execFinalize
  split
  · nofun
  · split <;> nofun

/-- In no state at all is an operation refused: refusals belong to records (R88). -/
theorem exec_ne_refused (i : Instr) (s : State) (e : Refusal) : exec i s ≠ .refused e := by
  cases i with
  | construct r c x o => exact construct_ne_refused r c x o s e
  | initialise => exact initialise_ne_refused s e
  | absorb buf off len => exact absorbCommand_ne_refused buf off.toNat len.toNat s e
  | finalize => exact finalize_ne_refused s e
  | digest224 | digest256 | digest384 | digest512 => exact construct_ne_refused _ _ _ _ s e
  | absorbBuf buf => exact absorbCommand_ne_refused buf 0 buf.length s e
  | loadlane | savelane | xorlane | lfsrstep | theta | rhopi | chi | iota | round | keccakf => nofun

/-- R62: a step from a state with the invariant does not fault, since its operation completes. -/
theorem step_ne_fault {s : State} (hi : s.Inv) (f : Fault) : step s ≠ .fault f := by
  match hq : s.pending with
  | [] =>
    rw [step_silent hq]
    nofun
  | .reset :: rest =>
    rw [step_reset hq]
    nofun
  | .operation form record :: rest =>
    cases hd : decode form record with
    | error e =>
      rw [step_undecodable hq hd]
      nofun
    | ok i =>
      have hi' : (s.setPending rest).Inv := hi
      obtain ⟨t, ht⟩ := exec_completes i hi'
      rw [step_operation hq hd, ht]
      nofun

/-- Everything a refused step can be: one whose record does not decode. -/
theorem step_refused_cases {s : State} {r : Refusal} (h : step s = .refused r) :
    ∃ f record rest e, s.pending = .operation f record :: rest ∧ decode f record = .error e ∧ r = .noMeaning e := by
  match hq : s.pending with
  | [] =>
    rw [step_silent hq] at h
    cases h
  | .reset :: rest =>
    rw [step_reset hq] at h
    cases h
  | .operation f record :: rest =>
    cases hd : decode f record with
    | error e =>
      rw [step_undecodable hq hd] at h
      exact ⟨f, record, rest, e, rfl, hd, (Host.Outcome.refused.inj h).symm⟩
    | ok i =>
      rw [step_operation hq hd] at h
      exact absurd h (exec_ne_refused i _ r)

/-- Settles O10: lane offsets and the driver's cursor and rate are inside `S`, so no operation of a step faults, and a
refusal is always that of a record. -/
theorem noAccessFallsOutsideState : Obligations.NoAccessFallsOutsideState := by
  refine ⟨fun x y => ?_, fun s hi hp => ?_, fun s hi f => step_ne_fault hi f, fun s r h => step_refused_cases h⟩
  · exact Nat.le_of_lt_succ (laneOffset_lt x y)
  · obtain ⟨hcur, hrate⟩ := cursorInside_of_inv hi hp
    rw [rateBytes_eq] at hcur hrate
    rw [Config.stateBytes] at hrate
    omega

end Sys2Proof.Proofs
end

section
/-! PROOFS. The bytes and the lanes of `S` are one storage (R22, R23): which bits of which lane a byte write reaches,
and which bytes a lane write. -/

namespace Sys2Proof.Proofs

open Sys2Proof.Machine

/-- Byte k of a lane, as a quotient of its value and as its bits 8k to 8k + 7. -/
theorem laneByte_eq_shift (v : Lane) (k : Nat) :
    BitVec.ofNat 8 (v.toNat / 256 ^ k) = (v >>> (8 * k)).setWidth 8 := by
  apply BitVec.eq_of_toNat_eq
  simp [Nat.shiftRight_eq_div_pow, pow_mul]

/-- Byte `j` of lane (x,y) is the byte at `a` exactly if the lane is number `a div 8` and `j` is `a mod 8` (R22). -/
theorem laneOffset_add_eq_iff {x y : Coord} {j a : Nat} (hj : j < 8) :
    a = laneOffset x y + j ↔ x.val + 5 * y.val = a / 8 ∧ j = a % 8 := by
  unfold laneOffset
  omega

/-- The bytes of lane (x,y) are those whose offset divided by 8 is the lane's number (R22). -/
theorem mem_laneBytes_iff {x y : Coord} {a : Nat} :
    (laneOffset x y ≤ a ∧ a < laneOffset x y + 8) ↔ a / 8 = x.val + 5 * y.val := by
  unfold laneOffset
  omega

theorem loadLane_write_getLsbD (m : Memory) (a : Nat) (v : Byte) (x y : Coord) {b : Nat} (hb : b < 64) :
    (loadLane (m.write a v) x y).getLsbD b =
      if x.val + 5 * y.val = a / 8 ∧ b / 8 = a % 8 then v.getLsbD (b % 8) else (loadLane m x y).getLsbD b := by
  have hbyte : b / 8 < 8 := by omega
  simp only [loadLane_getLsbD, Memory.read_write, hb, decide_true, Bool.true_and, laneOffset_add_eq_iff hbyte]
  split <;> rfl

theorem read_saveLane_eq_shift (m : Memory) (x y : Coord) (v : Lane) (a : Nat) :
    (saveLane m x y v).read a =
      if a / 8 = x.val + 5 * y.val then (v >>> (8 * (a % 8))).setWidth 8 else m.read a := by
  simp only [read_saveLane, mem_laneBytes_iff, laneByte_eq_shift]
  split
  · next h =>
    have hpos : a - laneOffset x y = a % 8 := by
      unfold laneOffset
      omega
    rw [hpos]
  · rfl

/-- Settles O32: a byte write seen in the lanes and in the bytes, and a lane write seen in the bytes. -/
theorem byteAndLaneViewsAreOneStorage : Obligations.ByteAndLaneViewsAreOneStorage := by
  refine ⟨fun m a v _ => ⟨fun x y b hb => loadLane_write_getLsbD m a v x y hb, fun a' => ?_⟩, read_saveLane_eq_shift⟩
  simp only [Memory.read_write, eq_comm]

end Sys2Proof.Proofs
end

section
/-! PROOFS. The phase table of R35 and the order of the checks (R187): each of the four commands has one of three
outcomes, and a pseudo-command has those of its expansion. -/

namespace Sys2Proof.Proofs

open Sys2Proof.Machine Sys2Proof.Claims

/-! ## The rows of the table, one equation per command -/

theorem phaseTable_construct (p : Phase) (r c : BitVec 16) (x : Byte) (o : BitVec 32) :
    phaseTable p (.construct r c x o) = if p = .unconfigured then some .configured else none := by
  cases p <;> rfl

theorem phaseTable_initialise (p : Phase) :
    phaseTable p .initialise = if p = .unconfigured then none else some .absorbing := by
  cases p <;> rfl

theorem phaseTable_absorb (p : Phase) (buf : List Byte) (off len : BitVec 32) :
    phaseTable p (.absorb buf off len) = if p = .absorbing then some .absorbing else none := by
  cases p <;> rfl

theorem phaseTable_finalize (p : Phase) :
    phaseTable p .finalize = if p = .absorbing then some .finalized else none := by
  cases p <;> rfl

theorem operandsRejected_construct (r c : BitVec 16) (x : Byte) (o : BitVec 32) :
    operandsRejected (.construct r c x o) = if parametersLegal r c = true then none else some .invalidParameter := by
  simp [operandsRejected, parametersLegal, and_assoc]

/-! ## INITIALIZE and FINALIZE, case by case -/

theorem initialise_turnedAway {s : State} (hp : s.PHASE = .unconfigured) :
    execInitialise s = raise .invalidState s := if_pos hp

theorem initialise_carriedOut {s : State} (hp : s.PHASE ≠ .unconfigured) :
    execInitialise s = respondOk [] (((s.setS (clearState s.S)).setCUR 0).setPHASE .absorbing) := if_neg hp

theorem finalize_turnedAway {s : State} (hp : s.PHASE ≠ .absorbing) :
    execFinalize s = raise .invalidState s := if_pos hp

/-- What FINALIZE squeezes out of the padded and permuted state, with the state it leaves (R155 step 5). -/
def squeezeDigest (s : State) : List Byte × State := squeeze (rateBytes s) s.OUTLEN.toNat s.OUTLEN.toNat s

theorem engineOnly_squeezeDigest (s : State) : EngineOnly s (squeezeDigest s).2 := engineOnly_squeeze _ _ _ s

theorem finalize_carriedOut {s u : State} (hp : s.PHASE = .absorbing) (hu : padAndPermute s = .ok u) :
    execFinalize s = respondOk (squeezeDigest u).1 ((squeezeDigest u).2.setPHASE .finalized) := by
  rw [execFinalize, if_neg (not_not.mpr hp), hu]
  rfl

/-! ## The outcome of a command -/

/-- The command `j` does in `s` what the table of R35 and the order of R187 say. -/
inductive TabledOutcome (j : Instr) (s : State) : Prop where
  /-- The table has `InvalidState`. -/
  | turnedAway : phaseTable s.PHASE j = none → exec j s = raise .invalidState s → TabledOutcome j s
  /-- The phase admits the command and its operand check fails. -/
  | rejected {p : Phase} {e : Status} : phaseTable s.PHASE j = some p → operandsRejected j = some e →
      exec j s = raise e s → TabledOutcome j s
  /-- Both checks pass, and the command answers from a state in the table's phase. -/
  | carriedOut {u : State} {payload : List Byte} : phaseTable s.PHASE j = some u.PHASE → operandsRejected j = none →
      exec j s = respondOk payload u → u.responses = s.responses → TabledOutcome j s

theorem construct_tabledOutcome (r c : BitVec 16) (x : Byte) (o : BitVec 32) (s : State) :
    TabledOutcome (.construct r c x o) s := by
  obtain ⟨hp, hc⟩ | ⟨hp, hl, hc⟩ | ⟨hp, hl, hc⟩ := construct_cases r c x o s
  · exact .turnedAway (by rw [phaseTable_construct, if_neg hp]) hc
  · exact .rejected (by rw [phaseTable_construct, if_pos hp]) (by simp [operandsRejected_construct, hl]) hc
  · exact .carriedOut (by simp [phaseTable_construct, hp]) (by simp [operandsRejected_construct, hl]) hc (by simp)

theorem initialise_tabledOutcome (s : State) : TabledOutcome .initialise s := by
  by_cases hp : s.PHASE = .unconfigured
  · exact .turnedAway (by rw [phaseTable_initialise, if_pos hp]) (initialise_turnedAway hp)
  · exact .carriedOut (by simp [phaseTable_initialise, hp]) rfl (initialise_carriedOut hp) (by simp)

theorem absorb_tabledOutcome (buf : List Byte) (off len : BitVec 32) {s : State} (hi : s.Inv) :
    TabledOutcome (.absorb buf off len) s := by
  obtain ⟨hp, hc⟩ | ⟨hp, hl, hc⟩ | ⟨hp, hl, -, hok⟩ := absorbCommand_cases buf off.toNat len.toNat s
  · exact .turnedAway (by rw [phaseTable_absorb, if_neg hp]) hc
  · exact .rejected (by rw [phaseTable_absorb, if_pos hp]) (if_neg (by omega)) hc
  · obtain ⟨u, hu, -⟩ := absorbBytes_completes (bufferSlice buf off.toNat len.toNat) (cursorInside_of_inv hi hp)
    have hframe := absorbBytes_frame hu
    have hphase : u.PHASE = .absorbing := (congrArg State.PHASE hframe).trans hp
    exact .carriedOut (by rw [phaseTable_absorb, if_pos hp, hphase]) (if_pos hl) (hok u hu)
      (congrArg State.responses hframe :)

theorem finalize_tabledOutcome {s : State} (hi : s.Inv) : TabledOutcome .finalize s := by
  by_cases hp : s.PHASE = .absorbing
  · obtain ⟨u, hu⟩ := padAndPermute_completes (cursorInside_of_inv hi hp)
    obtain ⟨hframe, -⟩ := (engineOnly_of_padAndPermute hu).trans (engineOnly_squeezeDigest u)
    exact .carriedOut (by simp [phaseTable_finalize, hp]) rfl (finalize_carriedOut hp hu)
      (congrArg State.responses hframe :)
  · exact .turnedAway (by rw [phaseTable_finalize, if_neg hp]) (finalize_turnedAway hp)

/-! ## Pseudo-commands -/

/-- R92: a well-formed pseudo-command does what its expansion does. -/
theorem exec_expand {i : Instr} (hw : i.wellFormed = true) (s : State) : exec i.expand s = exec i s := by
  cases i with
  | absorbBuf buf =>
    have hlen : (BitVec.ofNat 32 buf.length).toNat = buf.length := by
      rw [BitVec.toNat_ofNat, Nat.mod_eq_of_lt (of_decide_eq_true hw)]
    exact congrArg (fun n => absorbCommand buf 0 n s) hlen
  | construct | initialise | absorb | finalize | loadlane | savelane | xorlane | lfsrstep | theta | rhopi | chi | iota
  | round | keccakf | digest224 | digest256 | digest384 | digest512 => rfl

theorem expand_tabledOutcome {i : Instr} (hf : i.format = .cmd) {s : State} (hi : s.Inv) :
    TabledOutcome i.expand s := by
  cases i with
  | construct r c x o => exact construct_tabledOutcome r c x o s
  | digest224 | digest256 | digest384 | digest512 => exact construct_tabledOutcome _ _ _ _ s
  | initialise => exact initialise_tabledOutcome s
  | absorb buf off len => exact absorb_tabledOutcome buf off len hi
  | absorbBuf buf => exact absorb_tabledOutcome buf 0 _ hi
  | finalize => exact finalize_tabledOutcome hi
  | loadlane | savelane | xorlane | lfsrstep | theta | rhopi | chi | iota | round | keccakf => cases hf

/-- Settles O12: the expansion of a command has one of the three outcomes of the table, and the command does what its
expansion does. -/
theorem phaseTableDecidesCommands : Obligations.PhaseTableDecidesCommands := by
  refine ⟨fun i s hf hw hi => ?_, fun i s t h ht => (exec_effect h).unconfigured_before ht⟩
  rw [← exec_expand hw]
  cases expand_tabledOutcome hf hi with
  | turnedAway hp hexec =>
    rw [hp]
    exact hexec
  | rejected hp ho hexec =>
    rw [hp, ho]
    exact hexec
  | @carriedOut u payload hp ho hexec hresp =>
    rw [hp, ho]
    exact ⟨u.respond .ok payload, payload, hexec, by rw [State.respond_responses, hresp], rfl⟩

end Sys2Proof.Proofs
end

section
/-! PROOFS. Absorbing is absorbing block by block (R54, R153): what a message leaves in the block is given by its whole
blocks and the bytes left over, and one more byte moves that on as AbsorbByte does. -/

namespace Sys2Proof.Proofs

open Sys2Proof.Machine Sys2Proof.Claims

/-! ## The generator's value after a permutation -/

/-- IOTA advances the generator seven times whatever the bits and `S` are (R134, R217). -/
theorem iota_snd (e : Engine) : (iota e).2 = lfsrNext^[7] e.2 := rfl

theorem keccakRound_snd (e : Engine) : (keccakRound e).2 = lfsrNext^[7] e.2 := iota_snd _

/-- 24 rounds from the seed leave 0x8E (R137), whatever `S` holds. -/
theorem keccakf_snd (m : Memory) : (keccakf m).2 = 0x8E := by
  have hrounds : Function.Semiconj Prod.snd keccakRound lfsrNext^[7] := keccakRound_snd
  calc (keccakf m).2 = (lfsrNext^[7])^[24] lfsrSeed := hrounds.iterate_right 24 (m, lfsrSeed)
    _ = 0x8E := by decide +kernel

/-! ## AbsorbByte, case by case -/

theorem absorbByte_filling (b : Byte) {s : State} (hc : s.CUR.toNat < Config.stateBytes)
    (h : (s.CUR + 1).toNat = rateBytes s) : absorbByte b s = .ok ((permute (afterByte b s)).setCUR 0) := by
  rw [absorbByte, xorByte_inside hc]
  exact if_pos h

theorem absorbByte_leavingOpen (b : Byte) {s : State} (hc : s.CUR.toNat < Config.stateBytes)
    (h : (s.CUR + 1).toNat ≠ rateBytes s) : absorbByte b s = .ok (afterByte b s) := by
  rw [absorbByte, xorByte_inside hc]
  exact if_neg h

/-- ABSORB of a whole buffer is AbsorbByte on each of its bytes (R92, R152). -/
theorem exec_absorbBuf {buf : List Byte} {s u : State} (hp : s.PHASE = .absorbing) (hu : absorbBytes buf s = .ok u) :
    exec (.absorbBuf buf) s = respondOk [] u := by
  have hslice : bufferSlice buf 0 buf.length = buf := by simp [bufferSlice]
  obtain ⟨hp', -⟩ | ⟨-, hl, -⟩ | ⟨-, -, -, hok⟩ := absorbCommand_cases buf 0 buf.length s
  · exact absurd hp hp'
  · omega
  · exact hok u (by rw [hslice, hu])

theorem execAll_cons {i : Instr} {s t : State} (h : exec i s = .next t) (is : List Instr) :
    execAll (i :: is) s = execAll is t := by
  rw [execAll, h]

/-! ## Whole blocks and the bytes left over -/

theorem div_mod_succ_of_lt {n r : Nat} (h : n % r + 1 < r) : (n + 1) / r = n / r ∧ (n + 1) % r = n % r + 1 := by
  have hn := Nat.mod_add_div n r
  exact (Nat.div_mod_unique (by omega)).mpr ⟨by omega, h⟩

theorem div_mod_succ_of_eq {n r : Nat} (h : n % r + 1 = r) : (n + 1) / r = n / r + 1 ∧ (n + 1) % r = 0 := by
  have hn := Nat.mod_add_div n r
  refine (Nat.div_mod_unique (by omega)).mpr ⟨?_, by omega⟩
  rw [Nat.mul_succ]
  omega

@[simp] theorem xorBlock_nil (m : Memory) : xorBlock m [] = m := rfl

/-- The next byte of a block is XORed in at the offset of its place in the block. -/
theorem xorBlock_snoc (m : Memory) (block : List Byte) (b : Byte) :
    xorBlock m (block ++ [b]) =
      (xorBlock m block).write block.length ((xorBlock m block).read block.length ^^^ b) := by
  simp [xorBlock, List.zipIdx_append]

/-- The first i blocks of a message are not changed by what follows them. -/
theorem afterBlocks_append {r i : Nat} {msg : List Byte} (h : i * r ≤ msg.length) (more : List Byte) :
    afterBlocks r (msg ++ more) i = afterBlocks r msg i := by
  induction i with
  | zero => rfl
  | succ i ih =>
    rw [Nat.succ_mul] at h
    rw [afterBlocks, afterBlocks, ih (by omega), List.drop_append_of_le_length (by omega),
      List.take_append_of_le_length (by rw [List.length_drop]; omega)]

/-- The bytes of a message that fill no block. -/
def leftover (r : Nat) (msg : List Byte) : List Byte := msg.drop (msg.length / r * r)

/-- `S` after a message has been absorbed into the zero state: its whole blocks, then the bytes left over. -/
def absorbedMemory (r : Nat) (msg : List Byte) : Memory :=
  xorBlock (afterBlocks r msg (msg.length / r)) (leftover r msg)

theorem leftover_length (r : Nat) (msg : List Byte) : (leftover r msg).length = msg.length % r := by
  rw [leftover, List.length_drop, Nat.mod_eq_sub_div_mul]

/-- The message with one byte more, cut where the message itself is cut, gives `S` with that byte XORed in. -/
theorem xorBlock_leftover_snoc (r : Nat) (msg : List Byte) (b : Byte) :
    xorBlock (afterBlocks r (msg ++ [b]) (msg.length / r)) ((msg ++ [b]).drop (msg.length / r * r)) =
      (absorbedMemory r msg).write (msg.length % r) ((absorbedMemory r msg).read (msg.length % r) ^^^ b) := by
  have hcut : msg.length / r * r ≤ msg.length := Nat.div_mul_le_self _ _
  rw [afterBlocks_append hcut, List.drop_append_of_le_length hcut, xorBlock_snoc, ← leftover_length]
  rfl

theorem absorbedMemory_snoc_of_lt {r : Nat} {msg : List Byte} (h : msg.length % r + 1 < r) (b : Byte) :
    absorbedMemory r (msg ++ [b]) =
      (absorbedMemory r msg).write (msg.length % r) ((absorbedMemory r msg).read (msg.length % r) ^^^ b) := by
  rw [← xorBlock_leftover_snoc, absorbedMemory, leftover, List.length_append, List.length_singleton,
    (div_mod_succ_of_lt h).1]

theorem absorbedMemory_snoc_of_eq {r : Nat} {msg : List Byte} (h : msg.length % r + 1 = r) (b : Byte) :
    absorbedMemory r (msg ++ [b]) =
      (keccakf ((absorbedMemory r msg).write (msg.length % r)
        ((absorbedMemory r msg).read (msg.length % r) ^^^ b))).1 := by
  obtain ⟨hdiv, hmod⟩ := div_mod_succ_of_eq h
  have hlen : (msg ++ [b]).length = msg.length + 1 := List.length_append
  have hnone : leftover r (msg ++ [b]) = [] := List.length_eq_zero_iff.mp (by rw [leftover_length, hlen, hmod])
  have hlast : ((msg ++ [b]).drop (msg.length / r * r)).take r = (msg ++ [b]).drop (msg.length / r * r) := by
    have hn := Nat.div_add_mod' msg.length r
    apply List.take_of_length_le
    rw [List.length_drop, hlen]
    omega
  rw [absorbedMemory, hnone, xorBlock_nil, hlen, hdiv, afterBlocks, hlast, xorBlock_leftover_snoc]

/-! ## The block after a message -/

/-- The block `s` after a message has been absorbed into the zero state. -/
def afterMessage (s : State) (msg : List Byte) : State :=
  { s with
    S := absorbedMemory (rateBytes s) msg
    CUR := BitVec.ofNat 8 (msg.length % rateBytes s)
    LFSR := if msg.length / rateBytes s = 0 then s.LFSR else 0x8E }

section
variable {s : State} (h0 : 0 < rateBytes s) (h200 : rateBytes s ≤ Config.stateBytes)
include h0 h200

/-- The cursor's 8 bits hold every position inside the rate portion. -/
theorem afterMessage_CUR_toNat (msg : List Byte) :
    (afterMessage s msg).CUR.toNat = msg.length % rateBytes s := by
  have hmod := Nat.mod_lt msg.length h0
  rw [Config.stateBytes] at h200
  exact BitVec.toNat_ofNat _ _ ▸ Nat.mod_eq_of_lt (by omega)

/-- One byte more moves the block after a message to the block after the longer one. -/
theorem absorbByte_afterMessage (msg : List Byte) (b : Byte) :
    absorbByte b (afterMessage s msg) = .ok (afterMessage s (msg ++ [b])) := by
  have hcur := afterMessage_CUR_toNat h0 h200 msg
  have hmod := Nat.mod_lt msg.length h0
  have hinside : CursorInside (afterMessage s msg) := ⟨by rw [hcur]; exact hmod, h200⟩
  have hc : (afterMessage s msg).CUR.toNat < Config.stateBytes := Nat.lt_of_lt_of_le hinside.1 h200
  have hsucc : ((afterMessage s msg).CUR + 1).toNat = msg.length % rateBytes s + 1 := by
    rw [cursor_succ_toNat hinside, hcur]
  have hlen : (msg ++ [b]).length = msg.length + 1 := List.length_append
  by_cases hfull : msg.length % rateBytes s + 1 = rateBytes s
  · obtain ⟨hdiv, hmod'⟩ := div_mod_succ_of_eq hfull
    rw [absorbByte_filling b hc (hsucc.trans hfull), afterByte, hcur]
    congr 1
    ext1 <;> simp [afterMessage, hlen, hdiv, hmod', absorbedMemory_snoc_of_eq hfull, keccakf_snd]
  · have hlt : msg.length % rateBytes s + 1 < rateBytes s := by omega
    obtain ⟨hdiv, hmod'⟩ := div_mod_succ_of_lt hlt
    rw [absorbByte_leavingOpen b hc (by rw [hsucc]; exact hfull), afterByte, hcur]
    congr 1
    ext1 <;> simp [afterMessage, hlen, hdiv, hmod', absorbedMemory_snoc_of_lt hlt, BitVec.ofNat_add]

/-- R153: the bytes of a message, absorbed one after another from the zero state. -/
theorem absorbBytes_afterMessage (msg : List Byte) :
    absorbBytes msg (afterMessage s []) = .ok (afterMessage s msg) := by
  induction msg using List.reverseRecOn with
  | nil => rfl
  | append_singleton msg b ih =>
    rw [absorbBytes_append, ih]
    calc absorbBytes [b] (afterMessage s msg)
        = (absorbByte b (afterMessage s msg)).bind (absorbBytes []) := absorbBytes_cons b [] _
      _ = .ok (afterMessage s (msg ++ [b])) := by rw [absorbByte_afterMessage h0 h200]; rfl

end

/-- INITIALIZE leaves a canonical `S` with no entry (R151). -/
theorem clearState_eq_nil {m : Memory} (w : m.wf = true) : clearState m = [] := by
  refine Memory.ext_of_wf (wf_clearState w) rfl fun a => ?_
  rw [read_clearState]
  split
  · rfl
  · next ha => exact Memory.read_outside w (Nat.le_of_not_lt ha)

/-- The block INITIALIZE leaves (R151), its answer given. -/
def afterInitialise (s : State) : State := { s with S := [], CUR := 0, PHASE := .absorbing }.respond .ok []

theorem exec_initialise {s : State} (w : s.S.wf = true) (hp : s.PHASE ≠ .unconfigured) :
    exec .initialise s = .next (afterInitialise s) := by
  refine (initialise_carriedOut hp).trans ?_
  rw [clearState_eq_nil w]
  rfl

theorem afterInitialise_eq_afterMessage (s : State) : afterInitialise s = afterMessage (afterInitialise s) [] := by
  ext1 <;> simp [afterMessage, absorbedMemory, leftover, afterBlocks, afterInitialise]

/-- Settles O24: INITIALIZE leaves the block after the empty message, and ABSORB takes it byte by byte to the block after
`msg`. -/
theorem messagesAreAbsorbedBlockwise : Obligations.MessagesAreAbsorbedBlockwise := by
  intro msg s hi hp
  have hmsg : absorbBytes msg (afterInitialise s) = .ok (afterMessage (afterInitialise s) msg) := by
    have h := absorbBytes_afterMessage (s := afterInitialise s) (rateBytes_pos hi hp :) (rateBytes_le hi hp :) msg
    rwa [← afterInitialise_eq_afterMessage] at h
  rw [execAll_cons (exec_initialise hi.1 hp), execAll_cons (exec_absorbBuf rfl hmsg)]
  refine congrArg Host.Outcome.next ?_
  ext1 <;> simp [afterMessage, absorbedMemory, leftover, afterInitialise, rateBytes_eq]

end Sys2Proof.Proofs
end

section
/-! PROOFS. What `S` holds steers nothing (R25): an operation on the block with other contents of `S` is the same
operation with other contents of `S` after it, but for a lane that LOADLANE returns and the bytes of FINALIZE's digest. -/

namespace Sys2Proof.Proofs

open Sys2Proof.Machine

/-! ## The driver's shared operations with other contents of `S` -/

theorem setEngine_setS (s : State) (m : Memory) {e e' : Engine} (h : e'.2 = e.2) :
    (s.setS m).setEngine e' = (s.setEngine e).setS e'.1 := by
  ext1 <;> simp [h]

theorem permute_setS (s : State) (m : Memory) : permute (s.setS m) = (permute s).setS (keccakf m).1 :=
  setEngine_setS s m ((keccakf_snd m).trans (keccakf_snd s.S).symm)

theorem xorByte_setS {a : Nat} {v : Byte} {s t : State} (h : xorByte a v s = .ok t) (m : Memory) :
    ∃ m', xorByte a v (s.setS m) = .ok (t.setS m') := by
  obtain ⟨ha, rfl⟩ := xorByte_eq_ok.mp h
  exact ⟨_, xorByte_inside ha v (s.setS m)⟩

theorem setS_setCUR (s : State) (m : Memory) (c : Byte) : (s.setS m).setCUR c = (s.setCUR c).setS m := rfl

theorem afterByte_setS (b : Byte) (s : State) (m : Memory) :
    ∃ m', afterByte b (s.setS m) = (afterByte b s).setS m' := ⟨_, rfl⟩

/-- Whether the block is filled depends on CUR and RATE alone. -/
theorem absorbByte_setS {b : Byte} {s t : State} (h : absorbByte b s = .ok t) (m : Memory) :
    ∃ m', absorbByte b (s.setS m) = .ok (t.setS m') := by
  obtain ⟨ma, hma⟩ := afterByte_setS b s m
  obtain ⟨hc, ⟨hfull, rfl⟩ | ⟨hopen, rfl⟩⟩ := absorbByte_cases h
  · rw [absorbByte_filling b (s := s.setS m) hc hfull, hma, permute_setS, setS_setCUR]
    exact ⟨_, rfl⟩
  · rw [absorbByte_leavingOpen b (s := s.setS m) hc hopen, hma]
    exact ⟨ma, rfl⟩

theorem absorbBytes_setS {bs : List Byte} {s t : State} (h : absorbBytes bs s = .ok t) (m : Memory) :
    ∃ m', absorbBytes bs (s.setS m) = .ok (t.setS m') := by
  induction bs generalizing s m with
  | nil =>
    cases h
    exact ⟨m, rfl⟩
  | cons b bs ih =>
    rw [absorbBytes_cons] at h
    cases hb : absorbByte b s with
    | error f =>
      rw [hb] at h
      cases h
    | ok u =>
      rw [hb] at h
      obtain ⟨m', hm'⟩ := absorbByte_setS hb m
      rw [absorbBytes_cons, hm']
      exact ih h m'

/-- The suffix fills the block or not by SUFFIX, CUR and RATE alone (R155 step 2). -/
theorem permuteIfFilled_setS (s : State) (m : Memory) :
    ∃ m', permuteIfFilled (s.setS m) = (permuteIfFilled s).setS m' := by
  have hfills : suffixFillsBlock (s.setS m) = suffixFillsBlock s := rfl
  unfold permuteIfFilled
  rw [hfills]
  split
  · exact ⟨_, permute_setS s m⟩
  · exact ⟨m, rfl⟩

theorem padLastByte_eq_ok {s t : State} :
    padLastByte s = .ok t ↔ 0 < rateBytes s ∧ xorByte (rateBytes s - 1) finalPad s = .ok t := by
  unfold padLastByte
  split
  · next h => simp [h]
  · next r h => simp [h]

theorem padLastByte_setS {s t : State} (h : padLastByte s = .ok t) (m : Memory) :
    ∃ m', padLastByte (s.setS m) = .ok (t.setS m') := by
  obtain ⟨hpos, hxor⟩ := padLastByte_eq_ok.mp h
  obtain ⟨m', hm'⟩ := xorByte_setS hxor m
  exact ⟨m', padLastByte_eq_ok.mpr ⟨hpos, hm'⟩⟩

theorem padAndPermute_setS {s t : State} (h : padAndPermute s = .ok t) (m : Memory) :
    ∃ m', padAndPermute (s.setS m) = .ok (t.setS m') := by
  obtain ⟨s1, s3, h1, h3, rfl⟩ := padAndPermute_eq_ok.mp h
  obtain ⟨m1, hm1⟩ := xorByte_setS h1 m
  obtain ⟨m2, hm2⟩ := permuteIfFilled_setS s1 m1
  obtain ⟨m3, hm3⟩ := padLastByte_setS h3 m2
  exact ⟨_, padAndPermute_eq_ok.mpr ⟨_, _, hm1, hm2 ▸ hm3, permute_setS s3 m3⟩⟩

/-- The number of chunks, their lengths and the permutations between them depend on R and OUTLEN alone (R155 step 5). -/
theorem squeeze_setS (r : Nat) : ∀ (fuel rem : Nat) (s : State) (m : Memory),
    (squeeze r fuel rem (s.setS m)).1.length = (squeeze r fuel rem s).1.length ∧
    ∃ m', (squeeze r fuel rem (s.setS m)).2 = (squeeze r fuel rem s).2.setS m'
  | 0, _, _, m => ⟨rfl, m, rfl⟩
  | fuel + 1, rem, s, m => by
    obtain ⟨hlen, m', hm'⟩ := squeeze_setS r fuel (rem - min rem r) (permute s) (keccakf m).1
    rw [← permute_setS] at hlen hm'
    simp only [squeeze_turn]
    split_ifs
    · exact ⟨rfl, m, rfl⟩
    · exact ⟨by simp only [Memory.readList_length], m, rfl⟩
    · exact ⟨by simp only [List.length_append, Memory.readList_length, hlen], m', hm'⟩

/-! ## Operations whose outcomes differ in `S` only -/

/-- Both operations complete, in states that differ in `S` only. -/
def AlikeButS (o o' : StepOutcome) : Prop := ∃ t m, o = .next t ∧ o' = .next (t.setS m)

theorem construct_alike (r c : BitVec 16) (x : Byte) (o : BitVec 32) (s : State) (m : Memory) :
    AlikeButS (construct r c x o s) (construct r c x o (s.setS m)) := by
  unfold construct
  rw [State.setS_PHASE]
  split_ifs <;> exact ⟨_, m, rfl, rfl⟩

theorem initialise_alike (s : State) (m : Memory) : AlikeButS (execInitialise s) (execInitialise (s.setS m)) := by
  unfold execInitialise
  rw [State.setS_PHASE]
  split_ifs
  · exact ⟨_, m, rfl, rfl⟩
  · refine ⟨_, clearState m, rfl, congrArg Host.Outcome.next ?_⟩
    ext1 <;> simp

theorem absorbCommand_alike (buf : List Byte) (offset length : Nat) {s : State} (hi : s.Inv) (m : Memory) :
    AlikeButS (absorbCommand buf offset length s) (absorbCommand buf offset length (s.setS m)) := by
  unfold absorbCommand
  rw [State.setS_PHASE]
  split_ifs with hp hr
  · exact ⟨_, m, rfl, rfl⟩
  · obtain ⟨u, hu, -⟩ :=
      absorbBytes_completes (bufferSlice buf offset length) (cursorInside_of_inv hi (not_not.mp hp))
    obtain ⟨m', hm'⟩ := absorbBytes_setS hu m
    rw [hu, hm']
    exact ⟨_, m', rfl, rfl⟩
  · exact ⟨_, m, rfl, rfl⟩

/-! ## What steers -/

/-- The registers but `S` agree, and so do the statuses and payload lengths of the responses. -/
def SameControl (t t' : State) : Prop :=
  t.CUR = t'.CUR ∧ t.PHASE = t'.PHASE ∧ t.LFSR = t'.LFSR ∧
  t.RATE = t'.RATE ∧ t.CAPACITY = t'.CAPACITY ∧ t.SUFFIX = t'.SUFFIX ∧ t.OUTLEN = t'.OUTLEN ∧
  t.responses.map (fun r => (r.status, r.payload.length)) = t'.responses.map (fun r => (r.status, r.payload.length))

/-- Both operations complete, in states that agree in all that steers. -/
def SteeredAlike (o o' : StepOutcome) : Prop := ∃ t t', o = .next t ∧ o' = .next t' ∧ SameControl t t'

theorem AlikeButS.steeredAlike {o o' : StepOutcome} (h : AlikeButS o o') : SteeredAlike o o' := by
  obtain ⟨t, m, ho, ho'⟩ := h
  exact ⟨t, t.setS m, ho, ho', rfl, rfl, rfl, rfl, rfl, rfl, rfl, rfl⟩

/-- FINALIZE's digests have different bytes but the same length. -/
theorem finalize_steeredAlike {s : State} (hi : s.Inv) (m : Memory) :
    SteeredAlike (execFinalize s) (execFinalize (s.setS m)) := by
  by_cases hp : s.PHASE = .absorbing
  · obtain ⟨u, hu⟩ := padAndPermute_completes (cursorInside_of_inv hi hp)
    obtain ⟨mu, hmu⟩ := padAndPermute_setS hu m
    obtain ⟨hlen, m', hm'⟩ : (squeezeDigest (u.setS mu)).1.length = (squeezeDigest u).1.length ∧
        ∃ m', (squeezeDigest (u.setS mu)).2 = (squeezeDigest u).2.setS m' := squeeze_setS _ _ _ u mu
    refine ⟨_, _, finalize_carriedOut hp hu, finalize_carriedOut (s := s.setS m) hp hmu, ?_⟩
    simp [SameControl, hlen, hm']
  · exact AlikeButS.steeredAlike ⟨_, m, finalize_turnedAway hp, finalize_turnedAway (s := s.setS m) hp⟩

theorem exec_steeredAlike (i : Instr) {s : State} (hi : s.Inv) (m : Memory) :
    SteeredAlike (exec i s) (exec i (s.setS m)) := by
  cases i with
  | construct r c x o => exact (construct_alike r c x o s m).steeredAlike
  | digest224 | digest256 | digest384 | digest512 => exact (construct_alike _ _ _ _ s m).steeredAlike
  | initialise => exact (initialise_alike s m).steeredAlike
  | absorb buf off len => exact (absorbCommand_alike buf off.toNat len.toNat hi m).steeredAlike
  | absorbBuf buf => exact (absorbCommand_alike buf 0 buf.length hi m).steeredAlike
  | finalize => exact finalize_steeredAlike hi m
  | loadlane x y => exact ⟨_, _, rfl, rfl, rfl, rfl, rfl, rfl, rfl, rfl, rfl, rfl⟩
  | savelane x y v => exact AlikeButS.steeredAlike ⟨_, saveLane m x y v, rfl, rfl⟩
  | xorlane x y v => exact AlikeButS.steeredAlike ⟨_, xorLane m x y v, rfl, rfl⟩
  | lfsrstep => exact AlikeButS.steeredAlike ⟨_, m, rfl, rfl⟩
  | theta => exact AlikeButS.steeredAlike ⟨_, theta m, rfl, rfl⟩
  | rhopi => exact AlikeButS.steeredAlike ⟨_, rhopi m, rfl, rfl⟩
  | chi => exact AlikeButS.steeredAlike ⟨_, chi m, rfl, rfl⟩
  | iota =>
    have hlfsr : (iota (m, s.LFSR)).2 = (iota (s.S, s.LFSR)).2 := by rw [iota_snd, iota_snd]
    exact AlikeButS.steeredAlike ⟨_, _, rfl, congrArg Host.Outcome.next (setEngine_setS s m hlfsr)⟩
  | round =>
    have hlfsr : (keccakRound (m, s.LFSR)).2 = (keccakRound (s.S, s.LFSR)).2 := by
      rw [keccakRound_snd, keccakRound_snd]
    exact AlikeButS.steeredAlike ⟨_, _, rfl, congrArg Host.Outcome.next (setEngine_setS s m hlfsr)⟩
  | keccakf => exact AlikeButS.steeredAlike ⟨_, _, rfl, congrArg Host.Outcome.next (permute_setS s m)⟩

/-- Settles O27: other contents of `S` leave every branch an operation takes, every register but `S` and the length of
every payload as they are. -/
theorem contentsOfStateSteerNothing : Obligations.ContentsOfStateSteerNothing :=
  fun i _ m hi _ => exec_steeredAlike i hi m

end Sys2Proof.Proofs
end

section
/-! PROOFS. ABSORB on one range (R152): where it is turned away and where it has nothing to do, and what it XORs into
`S` when the range leaves the block open. -/

namespace Sys2Proof.Proofs

open Sys2Proof.Machine Sys2Proof.Claims

/-! ## ABSORB, case by case -/

theorem absorbCommand_turnedAway (buf : List Byte) (offset length : Nat) {s : State} (hp : s.PHASE ≠ .absorbing) :
    absorbCommand buf offset length s = raise .invalidState s := if_pos hp

theorem absorbCommand_outOfRange {buf : List Byte} {offset length : Nat} {s : State} (hp : s.PHASE = .absorbing)
    (hl : buf.length < offset + length) : absorbCommand buf offset length s = raise .outOfRange s := by
  obtain ⟨hp', -⟩ | ⟨-, -, hraise⟩ | ⟨-, hl', -⟩ := absorbCommand_cases buf offset length s
  · exact absurd hp hp'
  · exact hraise
  · omega

theorem absorbCommand_carriedOut {buf : List Byte} {offset length : Nat} {s u : State} (hp : s.PHASE = .absorbing)
    (hl : offset + length ≤ buf.length) (hu : absorbBytes (bufferSlice buf offset length) s = .ok u) :
    absorbCommand buf offset length s = respondOk [] u := by
  obtain ⟨hp', -⟩ | ⟨-, hl', -⟩ | ⟨-, -, -, hok⟩ := absorbCommand_cases buf offset length s
  · exact absurd hp hp'
  · omega
  · exact hok u hu

/-- Settles O19: the checks of R152 fail in turn, and an empty range has no byte to absorb. -/
theorem absorbTurnedAwayOrEmpty : Obligations.AbsorbTurnedAwayOrEmpty := by
  intro buf off len s
  refine ⟨fun hp => ⟨?_, ?_⟩, fun hp hl => ?_, fun hp hoff => ?_⟩
  · exact absorbCommand_turnedAway buf off.toNat len.toNat hp
  · exact absorbCommand_turnedAway buf 0 buf.length hp
  · exact absorbCommand_outOfRange hp hl
  · exact absorbCommand_carriedOut hp hoff (absorbBytes_nil s)

/-! ## The slice of the buffer (R63) -/

theorem bufferSlice_length {buf : List Byte} {offset length : Nat} (h : offset + length ≤ buf.length) :
    (bufferSlice buf offset length).length = length := by
  rw [bufferSlice, List.length_take, List.length_drop]
  omega

theorem bufferSlice_getD (buf : List Byte) (offset : Nat) {length k : Nat} (h : k < length) (d : Byte) :
    (bufferSlice buf offset length).getD k d = buf.getD (offset + k) d := by
  simp [bufferSlice, List.getD_eq_getElem?_getD, List.getElem?_take_of_lt h]

/-! ## Bytes XORed in from an offset on -/

/-- `S` with the bytes of a list XORed in from offset `a` on, one after another (R57). -/
def xorBytesFrom (m : Memory) (a : Nat) : List Byte → Memory
  | [] => m
  | b :: bs => xorBytesFrom (m.write a (m.read a ^^^ b)) (a + 1) bs

theorem read_xorBytesFrom (m : Memory) (a : Nat) (bs : List Byte) (a' : Nat) :
    (xorBytesFrom m a bs).read a' =
      if a ≤ a' ∧ a' < a + bs.length then m.read a' ^^^ bs.getD (a' - a) 0 else m.read a' := by
  induction bs generalizing m a with
  | nil => rw [xorBytesFrom, if_neg (by simp)]
  | cons b bs ih =>
    rw [xorBytesFrom, ih, Memory.read_write, List.length_cons]
    by_cases ha : a = a'
    · subst ha
      simp
    · rw [if_neg ha]
      by_cases hin : a + 1 ≤ a' ∧ a' < a + 1 + bs.length
      · rw [if_pos hin, if_pos (by omega), show a' - a = a' - (a + 1) + 1 by omega, List.getD_cons_succ]
      · rw [if_neg hin, if_neg (by omega)]

/-- The block `s` with the bytes of a list XORed in from the cursor on and the cursor behind them (R153). -/
def afterBytes (bs : List Byte) (s : State) : State :=
  (s.setS (xorBytesFrom s.S s.CUR.toNat bs)).setCUR (BitVec.ofNat 8 (s.CUR.toNat + bs.length))

theorem afterBytes_cons (b : Byte) (bs : List Byte) {s : State} (hsucc : (s.CUR + 1).toNat = s.CUR.toNat + 1) :
    afterBytes bs (afterByte b s) = afterBytes (b :: bs) s := by
  have hcur : (afterByte b s).CUR.toNat = s.CUR.toNat + 1 := hsucc
  rw [afterBytes, hcur, Nat.add_assoc, Nat.add_comm 1]
  rfl

/-- R153: bytes that leave the block open are XORed in and nothing is permuted. -/
theorem absorbBytes_leavingOpen {bs : List Byte} {s : State} (h200 : rateBytes s ≤ Config.stateBytes)
    (hroom : s.CUR.toNat + bs.length < rateBytes s) : absorbBytes bs s = .ok (afterBytes bs s) := by
  induction bs generalizing s with
  | nil =>
    rw [absorbBytes_nil]
    congr 1
    ext1 <;> simp [afterBytes, xorBytesFrom]
  | cons b bs ih =>
    rw [List.length_cons] at hroom
    have hinside : CursorInside s := ⟨by omega, h200⟩
    have hsucc := cursor_succ_toNat hinside
    have hrest : (afterByte b s).CUR.toNat + bs.length < rateBytes (afterByte b s) := by
      change (s.CUR + 1).toNat + bs.length < rateBytes s
      omega
    calc absorbBytes (b :: bs) s
        = (absorbByte b s).bind (absorbBytes bs) := absorbBytes_cons b bs s
      _ = absorbBytes bs (afterByte b s) := by rw [absorbByte_leavingOpen b (by omega) (by omega)]; rfl
      _ = .ok (afterBytes bs (afterByte b s)) := ih h200 hrest
      _ = .ok (afterBytes (b :: bs) s) := by rw [afterBytes_cons b bs hsucc]

/-- Settles O21: the bytes of the slice leave the block open, so they are XORed in from the cursor on and no more. -/
theorem absorbWithinABlock : Obligations.AbsorbWithinABlock := by
  intro buf off len s hi hp hl hroom
  have hlen := bufferSlice_length hl
  have hbytes : absorbBytes (bufferSlice buf off.toNat len.toNat) s =
      .ok (afterBytes (bufferSlice buf off.toNat len.toNat) s) :=
    absorbBytes_leavingOpen (rateBytes_le hi (by simp [hp])) (by rw [hlen]; exact hroom)
  refine ⟨_, absorbCommand_carriedOut hp hl hbytes, ?_, fun a => ?_⟩
  · rw [afterBytes, hlen]
    rfl
  · change (xorBytesFrom s.S s.CUR.toNat (bufferSlice buf off.toNat len.toNat)).read a = _
    rw [read_xorBytesFrom, hlen]
    split
    · next ha => rw [bufferSlice_getD _ _ (by omega)]
    · rfl

end Sys2Proof.Proofs
end

section
/-! PROOFS. LOADLANE (R110): the lane is the number its eight bytes write, least significant first, and no bit of them is
lost in its 64 bits. -/

namespace Sys2Proof.Proofs

open Sys2Proof.Machine

/-- `MemRead(a, n)` is a number of n bytes (R13). -/
theorem readN_lt (m : Memory) (a n : Nat) : m.readN a n < 256 ^ n := by
  induction n generalizing a with
  | zero => exact Nat.one_pos
  | succ n ih =>
    have hbyte : (m.read a).toNat < 256 := (m.read a).isLt
    have hrest := ih (a + 1)
    rw [Memory.readN, pow_succ]
    omega

theorem loadLane_toNat (m : Memory) (x y : Coord) : (loadLane m x y).toNat = m.readN (laneOffset x y) 8 := by
  rw [loadLane, BitVec.toNat_ofNat]
  exact Nat.mod_eq_of_lt (readN_lt m _ 8)

/-- The eight bytes from `a` as the sum of their weights (R110). -/
theorem readN_eight (m : Memory) (a : Nat) :
    m.readN a 8 =
      (m.read a).toNat + (m.read (a + 1)).toNat * 2 ^ 8 + (m.read (a + 2)).toNat * 2 ^ 16 +
      (m.read (a + 3)).toNat * 2 ^ 24 + (m.read (a + 4)).toNat * 2 ^ 32 + (m.read (a + 5)).toNat * 2 ^ 40 +
      (m.read (a + 6)).toNat * 2 ^ 48 + (m.read (a + 7)).toNat * 2 ^ 56 := by
  simp only [Memory.readN, Nat.add_assoc, Nat.reduceAdd]
  ring

/-- R52: bit c of the byte at `a` is bit `8 (a mod 8) + c` of the lane the byte belongs to. -/
theorem read_getLsbD_eq_loadLane (m : Memory) {x y : Coord} {a c : Nat} (ha : a / 8 = x.val + 5 * y.val) (hc : c < 8) :
    (m.read a).getLsbD c = (loadLane m x y).getLsbD (8 * (a % 8) + c) := by
  have hpos : a = laneOffset x y + a % 8 := (laneOffset_add_eq_iff (Nat.mod_lt a (by decide))).mpr ⟨ha.symm, rfl⟩
  have hbit : 8 * (a % 8) + c < 64 := by omega
  rw [loadLane_getLsbD, show (8 * (a % 8) + c) / 8 = a % 8 by omega, show (8 * (a % 8) + c) % 8 = c by omega, ← hpos]
  simp [hbit]

/-- Settles O28: the value is the sum of the lane's bytes, and its bits are theirs in both directions of R52. -/
theorem loadlaneReturnsTheLane : Obligations.LoadlaneReturnsTheLane := by
  refine ⟨fun _ _ => ⟨rfl, rfl⟩, fun x y s => ⟨loadLane s.S x y, rfl, ?_, fun b hb => ?_⟩,
    fun m x y a c ha hc => read_getLsbD_eq_loadLane m ha hc⟩
  · rw [loadLane_toNat, readN_eight]
    rfl
  · rw [loadLane_getLsbD, decide_eq_true hb, Bool.true_and]
    rfl

end Sys2Proof.Proofs
end

section
/-! PROOFS. The encoding (R80 to R88): operand bytes and operands are each other's inverses, so a record decodes to an
operation exactly if it is that operation's record, written in its format. -/

namespace Sys2Proof.Proofs

open Sys2Proof.Machine

/-! ## Operands and their bytes -/

@[simp] theorem word16_extractLsb' (w : BitVec 16) : word16 (w.extractLsb' 0 8) (w.extractLsb' 8 8) = w := by
  simp (disch := rfl) only [word16, BitVec.extractLsb'_append_extractLsb'_eq_extractLsb']
  exact BitVec.extractLsb'_eq_self

@[simp] theorem word32_extractLsb' (w : BitVec 32) :
    word32 (w.extractLsb' 0 8) (w.extractLsb' 8 8) (w.extractLsb' 16 8) (w.extractLsb' 24 8) = w := by
  simp (disch := rfl) only [word32, BitVec.extractLsb'_append_extractLsb'_eq_extractLsb']
  exact BitVec.extractLsb'_eq_self

@[simp] theorem word64_extractLsb' (w : BitVec 64) :
    word64 (w.extractLsb' 0 8) (w.extractLsb' 8 8) (w.extractLsb' 16 8) (w.extractLsb' 24 8)
      (w.extractLsb' 32 8) (w.extractLsb' 40 8) (w.extractLsb' 48 8) (w.extractLsb' 56 8) = w := by
  simp (disch := rfl) only [word64, BitVec.extractLsb'_append_extractLsb'_eq_extractLsb']
  exact BitVec.extractLsb'_eq_self

@[simp] theorem bytes16_word16 (b0 b1 : Byte) : bytes16 (word16 b0 b1) = [b0, b1] := by
  simp (disch := decide) only [bytes16, word16, BitVec.extractLsb'_append_eq_of_add_le,
    BitVec.extractLsb'_append_eq_of_le, Nat.reduceSub, BitVec.extractLsb'_eq_self]

@[simp] theorem bytes32_word32 (b0 b1 b2 b3 : Byte) : bytes32 (word32 b0 b1 b2 b3) = [b0, b1, b2, b3] := by
  simp (disch := decide) only [bytes32, word32, BitVec.extractLsb'_append_eq_of_add_le,
    BitVec.extractLsb'_append_eq_of_le, Nat.reduceSub, BitVec.extractLsb'_eq_self]

@[simp] theorem bytes64_word64 (b0 b1 b2 b3 b4 b5 b6 b7 : Byte) :
    bytes64 (word64 b0 b1 b2 b3 b4 b5 b6 b7) = [b0, b1, b2, b3, b4, b5, b6, b7] := by
  simp (disch := decide) only [bytes64, word64, BitVec.extractLsb'_append_eq_of_add_le,
    BitVec.extractLsb'_append_eq_of_le, Nat.reduceSub, BitVec.extractLsb'_eq_self]

@[simp] theorem coordByte_toNat (x : Coord) : (coordByte x).toNat = x.val := by
  rw [coordByte, BitVec.toNat_ofNat, Nat.mod_eq_of_lt (by omega)]

/-- R85, R88: the coordinate bytes are those of 0 to 4, one for each coordinate. -/
theorem decodeCoord_eq_some {b : Byte} {x : Coord} : decodeCoord b = some x ↔ coordByte x = b := by
  unfold decodeCoord
  split
  · next hlt =>
    rw [Option.some.injEq, ← BitVec.toNat_inj, coordByte_toNat, Fin.ext_iff, eq_comm]
  · next hge =>
    refine ⟨nofun, ?_⟩
    rintro rfl
    exact absurd (coordByte_toNat x ▸ x.isLt) hge

@[simp] theorem decodeCoord_coordByte (x : Coord) : decodeCoord (coordByte x) = some x :=
  decodeCoord_eq_some.mpr rfl

theorem toNat_length_of_bufferFits {buf : List Byte} (h : bufferFits buf = true) :
    (BitVec.ofNat 32 buf.length).toNat = buf.length := by
  rw [BitVec.toNat_ofNat, Nat.mod_eq_of_lt (of_decide_eq_true h)]

/-! ## Operand records: what each of the five shapes decodes, and from which bytes -/

theorem decodeConstruct_eq_ok {l : List Byte} {i : Instr} :
    decodeConstruct l = .ok i ↔ ∃ r c x o, i = .construct r c x o ∧ encodeConstruct r c x o = l := by
  constructor
  · intro h
    unfold decodeConstruct at h
    split at h
    · cases h
      exact ⟨_, _, _, _, rfl, by simp [encodeConstruct]⟩
    · cases h
  · rintro ⟨r, c, x, o, rfl, rfl⟩
    simp [encodeConstruct, bytes16, bytes32, decodeConstruct]

theorem decodeAbsorb_eq_ok {l : List Byte} {i : Instr} :
    decodeAbsorb l = .ok i ↔
      ∃ buf off len, i = .absorb buf off len ∧ bufferFits buf = true ∧ encodeAbsorb buf off len = l := by
  constructor
  · intro h
    unfold decodeAbsorb at h
    split at h
    · split at h
      · next hlen =>
        cases h
        refine ⟨_, _, _, rfl, decide_eq_true (hlen ▸ BitVec.isLt _), ?_⟩
        simp [encodeAbsorb, hlen]
      · cases h
    · cases h
  · rintro ⟨buf, off, len, rfl, hfits, rfl⟩
    simp [encodeAbsorb, bytes32, decodeAbsorb, toNat_length_of_bufferFits hfits, -BitVec.toNat_ofNat]

theorem decodeBare_eq_ok {j i : Instr} {l : List Byte} : decodeBare j l = .ok i ↔ i = j ∧ [] = l := by
  cases l <;> simp [decodeBare, eq_comm]

theorem decodeLoad_eq_ok {l : List Byte} {i : Instr} :
    decodeLoad l = .ok i ↔ ∃ x y, i = .loadlane x y ∧ [coordByte x, coordByte y] = l := by
  constructor
  · intro h
    unfold decodeLoad at h
    split at h
    · split at h
      · next hx hy =>
        cases h
        exact ⟨_, _, rfl, by rw [decodeCoord_eq_some.mp hx, decodeCoord_eq_some.mp hy]⟩
      · cases h
    · cases h
  · rintro ⟨x, y, rfl, rfl⟩
    simp [decodeLoad]

theorem decodeStore_eq_ok {mk : Coord → Coord → Lane → Instr} {l : List Byte} {i : Instr} :
    decodeStore mk l = .ok i ↔ ∃ x y v, i = mk x y v ∧ [coordByte x, coordByte y] ++ bytes64 v = l := by
  constructor
  · intro h
    unfold decodeStore at h
    split at h
    · split at h
      · next hx hy =>
        cases h
        exact ⟨_, _, _, rfl, by simp [decodeCoord_eq_some.mp hx, decodeCoord_eq_some.mp hy]⟩
      · cases h
    · cases h
  · rintro ⟨x, y, v, rfl, rfl⟩
    simp [bytes64, decodeStore]

/-! ## Codes: which operation a code and an operand record name -/

/-- `i` is an operation of the format with this code and these operand bytes, well-formed and its own expansion. -/
def HasRecord (i : Instr) (f : Format) (code : Nat) (operands : List Byte) : Prop :=
  i.format = f ∧ i.wellFormed = true ∧ i.expand = i ∧ i.code.toNat = code ∧ i.operandBytes = operands

theorem decodeCmd_sound {code : Nat} {operands : List Byte} {i : Instr} (h : decodeCmd code operands = .ok i) :
    HasRecord i .cmd code operands := by
  unfold decodeCmd at h
  split at h
  · obtain ⟨r, c, x, o, rfl, rfl⟩ := decodeConstruct_eq_ok.mp h
    exact ⟨rfl, rfl, rfl, rfl, rfl⟩
  · obtain ⟨rfl, rfl⟩ := decodeBare_eq_ok.mp h
    exact ⟨rfl, rfl, rfl, rfl, rfl⟩
  · obtain ⟨buf, off, len, rfl, hfits, rfl⟩ := decodeAbsorb_eq_ok.mp h
    exact ⟨rfl, hfits, rfl, rfl, rfl⟩
  · obtain ⟨rfl, rfl⟩ := decodeBare_eq_ok.mp h
    exact ⟨rfl, rfl, rfl, rfl, rfl⟩
  · cases h

theorem decodeUop_sound {code : Nat} {operands : List Byte} {i : Instr} (h : decodeUop code operands = .ok i) :
    HasRecord i .uop code operands := by
  unfold decodeUop at h
  split at h
  case h_1 =>
    obtain ⟨x, y, rfl, rfl⟩ := decodeLoad_eq_ok.mp h
    exact ⟨rfl, rfl, rfl, rfl, rfl⟩
  case h_2 | h_3 =>
    obtain ⟨x, y, v, rfl, rfl⟩ := decodeStore_eq_ok.mp h
    exact ⟨rfl, rfl, rfl, rfl, rfl⟩
  case h_11 => split at h <;> cases h
  all_goals
    obtain ⟨rfl, rfl⟩ := decodeBare_eq_ok.mp h
    exact ⟨rfl, rfl, rfl, rfl, rfl⟩

/-- R81, R82, R87: a record decodes to an operation exactly if it is the record of that operation, in its format. -/
theorem decode_eq_ok {f : Format} {record : List Byte} {i : Instr} :
    decode f record = .ok i ↔ i.format = f ∧ i.wellFormed = true ∧ i.expand = i ∧ encode i = record := by
  constructor
  · intro h
    match record, f with
    | c :: operands, .cmd =>
      obtain ⟨hf, hw, he, hcode, hops⟩ := decodeCmd_sound h
      exact ⟨hf, hw, he, congrArg₂ List.cons (BitVec.eq_of_toNat_eq hcode) hops⟩
    | c :: operands, .uop =>
      obtain ⟨hf, hw, he, hcode, hops⟩ := decodeUop_sound h
      exact ⟨hf, hw, he, congrArg₂ List.cons (BitVec.eq_of_toNat_eq hcode) hops⟩
  · rintro ⟨rfl, hw, he, rfl⟩
    cases i with
    | construct r c x o => exact decodeConstruct_eq_ok.mpr ⟨r, c, x, o, rfl, rfl⟩
    | absorb buf off len => exact decodeAbsorb_eq_ok.mpr ⟨buf, off, len, rfl, hw, rfl⟩
    | loadlane x y => exact decodeLoad_eq_ok.mpr ⟨x, y, rfl, rfl⟩
    | savelane x y v => exact decodeStore_eq_ok.mpr ⟨x, y, v, rfl, rfl⟩
    | xorlane x y v => exact decodeStore_eq_ok.mpr ⟨x, y, v, rfl, rfl⟩
    | initialise | finalize | lfsrstep | theta | rhopi | chi | iota | round | keccakf => rfl
    | digest224 | digest256 | digest384 | digest512 | absorbBuf => cases he

/-- R92: an expansion is an operation of the same format with the same record, and is its own expansion. -/
theorem expand_record (i : Instr) :
    i.expand.format = i.format ∧ i.expand.wellFormed = i.wellFormed ∧ i.expand.expand = i.expand ∧
      encode i.expand = encode i := by
  cases i <;> exact ⟨rfl, rfl, rfl, rfl⟩

/-- Settles O1: an operation's record is that of its expansion, and the expansion's record decodes to it. -/
theorem encodedOperationsDecode : Obligations.EncodedOperationsDecode := by
  intro i hw
  obtain ⟨hformat, hwf, hexpand, hencode⟩ := expand_record i
  exact decode_eq_ok.mpr ⟨hformat, hwf.trans hw, hexpand, hencode⟩

/-- Settles O2: a record decodes to an operation only if it is that operation's record. -/
theorem decodedRecordsAreEncodings : Obligations.DecodedRecordsAreEncodings :=
  fun _ _ _ h => decode_eq_ok.mp h

/-! ## Reserved encodings (R88) -/

/-- Each value of `op` is the code of a command that can be presented (R81). -/
theorem exists_command_of_code {c : Byte} (h : c.toNat < 4) :
    ∃ i : Instr, i.format = .cmd ∧ i.wellFormed = true ∧ i.code = c := by
  obtain rfl | rfl | rfl | rfl : c = 0 ∨ c = 1 ∨ c = 2 ∨ c = 3 := by bv_omega
  · exact ⟨.construct 0 0 0 0, rfl, rfl, rfl⟩
  · exact ⟨.initialise, rfl, rfl, rfl⟩
  · exact ⟨.absorb [] 0 0, rfl, rfl, rfl⟩
  · exact ⟨.finalize, rfl, rfl, rfl⟩

theorem decodeUop_reserved {code : Nat} (h10 : 10 ≤ code) (h15 : code ≤ 15) (operands : List Byte) :
    decodeUop code operands = .error .reservedUop := by
  unfold decodeUop
  split
  case h_11 => rw [if_pos (by omega)]
  all_goals omega

/-- The lane codec's operations are the unit operations with codes 0 to 2 (R82), and their operands begin with the
bytes of two coordinates. -/
theorem operandBytes_of_codec {i : Instr} (hf : i.format = .uop) (hc : i.code.toNat ≤ 2) :
    ∃ (x y : Coord) (rest : List Byte), i.operandBytes = coordByte x :: coordByte y :: rest := by
  cases i with
  | loadlane x y => exact ⟨x, y, [], rfl⟩
  | savelane x y v => exact ⟨x, y, bytes64 v, rfl⟩
  | xorlane x y v => exact ⟨x, y, bytes64 v, rfl⟩
  | lfsrstep | theta | rhopi | chi | iota | round | keccakf => exact absurd hc (by decide)
  | construct | initialise | absorb | finalize | digest224 | digest256 | digest384 | digest512 | absorbBuf => cases hf

/-- Settles O4: every command code has a command, the reserved unit codes fall to the decoder's last arm, and a record
that decoded with a reserved coordinate would be the record of a codec operation, whose coordinates are below 5. -/
theorem reservedEncodingsRefused : Obligations.ReservedEncodingsRefused := by
  refine ⟨fun c hc => ?_, fun c operands h10 h15 => decodeUop_reserved h10 h15 operands,
    fun c x y rest hc hxy => ?_, fun s f record rest e hp hd => step_undecodable hp hd⟩
  · obtain ⟨i, hf, hw, rfl⟩ := exists_command_of_code hc
    exact ⟨i.operandBytes, i.expand, hf ▸ encodedOperationsDecode i hw⟩
  · cases hd : decode .uop (c :: x :: y :: rest) with
    | error e => exact ⟨e, rfl⟩
    | ok i =>
      obtain ⟨hf, -, -, hrecord⟩ := decode_eq_ok.mp hd
      obtain ⟨rfl, hops⟩ := List.cons.inj hrecord
      obtain ⟨x', y', rest', hcoords⟩ := operandBytes_of_codec hf hc
      obtain ⟨rfl, hops'⟩ := List.cons.inj (hcoords.symm.trans hops)
      obtain ⟨rfl, -⟩ := List.cons.inj hops'
      rw [coordByte_toNat, coordByte_toNat] at hxy
      omega

/-- Settles O3: the decoder evaluates each record to its operation. -/
theorem writtenRecordsDecode : Obligations.WrittenRecordsDecode :=
  ⟨rfl, rfl, rfl, rfl, rfl, rfl, rfl, rfl, rfl, rfl, rfl, rfl, rfl, rfl⟩

end Sys2Proof.Proofs
end

section
/-! PROOFS. The two formats from outside: a unit operation is a function of `S` and LFSR and answers the host nothing (R82,
R138), and a command answers exactly once (R86, R180). -/

namespace Sys2Proof.Proofs

open Sys2Proof.Machine

/-! ## Unit operations -/

/-- The state after a unit operation that left `e` in `S` and LFSR and returned the results `new` (R82, R138). -/
def afterUnit (s : State) (e : Engine) (new : List UnitResult) : State :=
  { s with S := e.1, LFSR := e.2, results := s.results ++ new }

theorem afterUnit_nil (s : State) (e : Engine) : afterUnit s e [] = s.setEngine e := by
  ext1 <;> simp [afterUnit]

/-- R138: a unit operation is a function of `S` and LFSR. -/
theorem exec_unit {i : Instr} (h : i.format = .uop) :
    ∃ (f : Engine → Engine) (g : Engine → List UnitResult),
      ∀ s : State, exec i s = .next (afterUnit s (f (s.S, s.LFSR)) (g (s.S, s.LFSR))) := by
  cases i with
  | loadlane x y => exact ⟨id, fun e => [.lane (loadLane e.1 x y)], fun _ => rfl⟩
  | lfsrstep => exact ⟨fun e => (e.1, lfsrNext e.2), fun e => [.bit (lfsrBit e.2)], fun _ => rfl⟩
  | savelane x y v => exact ⟨fun e => (saveLane e.1 x y v, e.2), fun _ => [], fun s => by rw [afterUnit_nil]; rfl⟩
  | xorlane x y v => exact ⟨fun e => (xorLane e.1 x y v, e.2), fun _ => [], fun s => by rw [afterUnit_nil]; rfl⟩
  | theta => exact ⟨fun e => (theta e.1, e.2), fun _ => [], fun s => by rw [afterUnit_nil]; rfl⟩
  | rhopi => exact ⟨fun e => (rhopi e.1, e.2), fun _ => [], fun s => by rw [afterUnit_nil]; rfl⟩
  | chi => exact ⟨fun e => (chi e.1, e.2), fun _ => [], fun s => by rw [afterUnit_nil]; rfl⟩
  | iota => exact ⟨iota, fun _ => [], fun s => by rw [afterUnit_nil]; rfl⟩
  | round => exact ⟨keccakRound, fun _ => [], fun s => by rw [afterUnit_nil]; rfl⟩
  | keccakf => exact ⟨fun e => keccakf e.1, fun _ => [], fun s => by rw [afterUnit_nil]; rfl⟩
  | construct | initialise | absorb | finalize | digest224 | digest256 | digest384 | digest512 | absorbBuf => cases h

/-- Settles O43: the two states give the operation the same `S` and LFSR to work on. -/
theorem unitOperationsIgnoreTheDriver : Obligations.UnitOperationsIgnoreTheDriver := by
  intro i s s' hf hS hL
  obtain ⟨f, g, hexec⟩ := exec_unit hf
  have hexec' := hexec s'
  rw [← hS, ← hL] at hexec'
  exact ⟨_, _, g (s.S, s.LFSR), hexec s, hexec', rfl, rfl, rfl, rfl⟩

/-! ## The response of a command -/

/-- The outcome is a next state with the response `r` added, and no unit result (R86). -/
def Answers (o : StepOutcome) (s : State) (r : Response) : Prop :=
  ∃ t, o = .next t ∧ t.responses = s.responses ++ [r] ∧ t.results = s.results

theorem answers_raise (e : Status) (s : State) : Answers (raise e s) s ⟨e, []⟩ := ⟨_, rfl, rfl, rfl⟩

theorem answers_respondOk {s u : State} (hresp : u.responses = s.responses) (hres : u.results = s.results)
    (payload : List Byte) : Answers (respondOk payload u) s ⟨.ok, payload⟩ :=
  ⟨_, rfl, by rw [State.respond_responses, hresp], hres⟩

theorem construct_answers (r c : BitVec 16) (x : Byte) (o : BitVec 32) (s : State) :
    ∃ st, Answers (construct r c x o s) s ⟨st, []⟩ := by
  obtain ⟨-, hc⟩ | ⟨-, -, hc⟩ | ⟨-, -, hc⟩ := construct_cases r c x o s
  · exact ⟨_, hc ▸ answers_raise _ s⟩
  · exact ⟨_, hc ▸ answers_raise _ s⟩
  · exact ⟨_, hc ▸ answers_respondOk (by simp) (by simp) []⟩

theorem initialise_answers (s : State) : ∃ st, Answers (execInitialise s) s ⟨st, []⟩ := by
  by_cases hp : s.PHASE = .unconfigured
  · exact ⟨_, initialise_turnedAway hp ▸ answers_raise _ s⟩
  · exact ⟨_, initialise_carriedOut hp ▸ answers_respondOk (by simp) (by simp) []⟩

theorem absorbCommand_answers (buf : List Byte) (offset length : Nat) {s : State} (hi : s.Inv) :
    ∃ st, Answers (absorbCommand buf offset length s) s ⟨st, []⟩ := by
  obtain ⟨-, hc⟩ | ⟨-, -, hc⟩ | ⟨hp, -, -, hok⟩ := absorbCommand_cases buf offset length s
  · exact ⟨_, hc ▸ answers_raise _ s⟩
  · exact ⟨_, hc ▸ answers_raise _ s⟩
  · obtain ⟨u, hu, -⟩ := absorbBytes_completes (bufferSlice buf offset length) (cursorInside_of_inv hi hp)
    have hframe := absorbBytes_frame hu
    have hresp : u.responses = s.responses := (congrArg State.responses hframe :)
    have hres : u.results = s.results := (congrArg State.results hframe :)
    exact ⟨_, hok u hu ▸ answers_respondOk hresp hres []⟩

/-- R86, R157: FINALIZE answers `InvalidState` with nothing, or `OK` with OUTLEN bytes. -/
theorem finalize_answers {s : State} (hi : s.Inv) :
    Answers (execFinalize s) s ⟨.invalidState, []⟩ ∨
    ∃ digest, digest.length = s.OUTLEN.toNat ∧ Answers (execFinalize s) s ⟨.ok, digest⟩ := by
  by_cases hp : s.PHASE = .absorbing
  · obtain ⟨u, hu⟩ := padAndPermute_completes (cursorInside_of_inv hi hp)
    have hpad := engineOnly_of_padAndPermute hu
    obtain ⟨hframe, -⟩ := hpad.trans (engineOnly_squeezeDigest u)
    have hrate : rateBytes u = rateBytes s := rateBytes_congr (congrArg State.RATE hpad.1 :)
    have houtlen : u.OUTLEN = s.OUTLEN := (congrArg State.OUTLEN hpad.1 :)
    have hlength : (squeezeDigest u).1.length = s.OUTLEN.toNat := by
      rw [← houtlen]
      exact squeeze_length (hrate ▸ rateBytes_pos hi (by simp [hp])) _ _ _ le_rfl
    have hresp : (squeezeDigest u).2.responses = s.responses := (congrArg State.responses hframe :)
    have hres : (squeezeDigest u).2.results = s.results := (congrArg State.results hframe :)
    exact .inr ⟨_, hlength,
      finalize_carriedOut hp hu ▸ answers_respondOk (by simpa using hresp) (by simpa using hres) _⟩
  · exact .inl (finalize_turnedAway hp ▸ answers_raise _ s)

/-- Every command but FINALIZE answers a status alone (R86). -/
theorem exec_answers {i : Instr} (hf : i.format = .cmd) (hfin : i ≠ .finalize) {s : State} (hi : s.Inv) :
    ∃ st, Answers (exec i s) s ⟨st, []⟩ := by
  cases i with
  | construct r c x o => exact construct_answers r c x o s
  | digest224 | digest256 | digest384 | digest512 => exact construct_answers _ _ _ _ s
  | initialise => exact initialise_answers s
  | absorb buf off len => exact absorbCommand_answers buf off.toNat len.toNat hi
  | absorbBuf buf => exact absorbCommand_answers buf 0 buf.length hi
  | finalize => exact absurd rfl hfin
  | loadlane | savelane | xorlane | lfsrstep | theta | rhopi | chi | iota | round | keccakf => cases hf

/-- Settles O13: FINALIZE answers with a digest or an empty payload, every other command with an empty payload, and a
unit operation writes no response. -/
theorem everyCommandAnswersOnce : Obligations.EveryCommandAnswersOnce := by
  refine ⟨fun i s hf hi => ?_, fun i s t hf h => ?_, rfl, rfl, rfl, rfl⟩
  · by_cases hfin : i = .finalize
    · subst hfin
      obtain ⟨t, ht, hresp, hres⟩ | ⟨digest, hlen, t, ht, hresp, hres⟩ := finalize_answers hi
      · exact ⟨t, _, ht, hresp, hres, by simp⟩
      · exact ⟨t, _, ht, hresp, hres, by simpa using hlen⟩
    · obtain ⟨st, t, ht, hresp, hres⟩ := exec_answers hf hfin hi
      exact ⟨t, _, ht, hresp, hres, by simp [hfin]⟩
  · obtain ⟨f, g, hexec⟩ := exec_unit hf
    rw [hexec s] at h
    cases h
    rfl

end Sys2Proof.Proofs
end

section
/-! PROOFS. The pseudo-commands (R92, R159): the presets' constants pass CONSTRUCT's checks. -/

namespace Sys2Proof.Proofs

open Sys2Proof.Machine

theorem construct_carriedOut {r c : BitVec 16} (hl : parametersLegal r c = true) (x : Byte) (o : BitVec 32) {s : State}
    (hp : s.PHASE = .unconfigured) :
    construct r c x o s = respondOk [] ((s.setParameters r c x o).setPHASE .configured) := by
  rw [construct, if_neg (not_not.mpr hp), if_pos hl]

/-- Settles O17: the presets' constants are legal, and a pseudo-command does what its expansion does. -/
theorem presetsConfigure : Obligations.PresetsConfigure := by
  refine ⟨fun s hp => ⟨?_, ?_, ?_, ?_⟩, fun s => ⟨rfl, rfl, rfl, rfl⟩, fun buf s hfits => ?_⟩
  · exact construct_carriedOut (r := 1152) (c := 448) rfl 0x06 28 hp
  · exact construct_carriedOut (r := 1088) (c := 512) rfl 0x06 32 hp
  · exact construct_carriedOut (r := 832) (c := 768) rfl 0x06 48 hp
  · exact construct_carriedOut (r := 576) (c := 1024) rfl 0x06 64 hp
  · exact (exec_expand (i := .absorbBuf buf) (decide_eq_true hfits) s).symm

end Sys2Proof.Proofs
end

section
/-! PROOFS. Where ABSORB of a legal range leaves the cursor (R152): each byte moves it on by one, round the block. -/

namespace Sys2Proof.Proofs

open Sys2Proof.Machine

/-- R153: AbsorbByte moves the cursor on by one, round the block. -/
theorem absorbByte_cursor {b : Byte} {s t : State} (hin : CursorInside s) (h : absorbByte b s = .ok t) :
    t.CUR.toNat = (s.CUR.toNat + 1) % rateBytes s := by
  have hsucc := cursor_succ_toNat hin
  obtain ⟨-, ⟨hfull, rfl⟩ | ⟨hopen, rfl⟩⟩ := absorbByte_cases h
  · rw [← hsucc, hfull, Nat.mod_self]
    rfl
  · rw [Nat.mod_eq_of_lt (by have := hin.1; omega)]
    exact hsucc

/-- R152: after a run of bytes the cursor is `(CUR + length) mod R`. -/
theorem absorbBytes_cursor {bs : List Byte} {s t : State} (hin : CursorInside s) (h : absorbBytes bs s = .ok t) :
    t.CUR.toNat = (s.CUR.toNat + bs.length) % rateBytes s := by
  induction bs generalizing s with
  | nil =>
    cases h
    exact (Nat.mod_eq_of_lt hin.1).symm
  | cons b bs ih =>
    obtain ⟨u, hu, hinu⟩ := absorbByte_completes b hin
    rw [absorbBytes_cons, hu] at h
    have hrate : rateBytes u = rateBytes s := rateBytes_congr (congrArg State.RATE (absorbByte_frame hu) :)
    calc t.CUR.toNat = (u.CUR.toNat + bs.length) % rateBytes u := ih hinu h
      _ = (s.CUR.toNat + 1 + bs.length) % rateBytes s := by rw [absorbByte_cursor hin hu, hrate, Nat.mod_add_mod]
      _ = (s.CUR.toNat + (b :: bs).length) % rateBytes s := by rw [List.length_cons, Nat.add_right_comm, Nat.add_assoc]

/-- R152: ABSORB of a legal range, in either spelling: what its answer leaves, but for the contents of `S` and LFSR. -/
theorem absorbCommand_legal {buf : List Byte} {offset length : Nat} {s : State} (hi : s.Inv) (hp : s.PHASE = .absorbing)
    (hl : offset + length ≤ buf.length) :
    ∃ t, absorbCommand buf offset length s = .next t ∧
      t = { s with S := t.S, LFSR := t.LFSR, responses := s.responses ++ [⟨.ok, []⟩],
                   CUR := BitVec.ofNat 8 ((s.CUR.toNat + length) % (s.RATE.toNat / 8)) } := by
  have hin := cursorInside_of_inv hi hp
  obtain ⟨u, hu, -⟩ := absorbBytes_completes (bufferSlice buf offset length) hin
  have hcur : u.CUR = BitVec.ofNat 8 ((s.CUR.toNat + length) % (s.RATE.toNat / 8)) := by
    rw [← rateBytes_eq, ← bufferSlice_length hl, ← absorbBytes_cursor hin hu, BitVec.ofNat_toNat, BitVec.setWidth_eq]
  refine ⟨u.respond .ok [], absorbCommand_carriedOut hp hl hu, ?_⟩
  rw [← hcur, absorbBytes_frame hu]
  rfl

/-- Settles O20: ABSORB with operands and ABSORB of a whole buffer are both ABSORB of a legal range. -/
theorem absorbCompletes : Obligations.AbsorbCompletes := by
  intro buf s hi hp
  refine ⟨fun off len hl => ?_, ?_⟩
  · exact absorbCommand_legal hi hp hl
  · exact absorbCommand_legal hi hp (by omega)

end Sys2Proof.Proofs
end

section
/-! PROOFS. SAVELANE and XORLANE (R111, R112): the eight bytes they reach, those they leave, and where they restore the
memory; LOADLANE, SAVELANE and XORLANE in the lane view (R113). -/

namespace Sys2Proof.Proofs

open Sys2Proof.Machine

/-! ## The bytes of a lane write and of a lane XOR -/

/-- R111: byte k of the lane is byte k of the value saved. -/
theorem read_saveLane_byte (m : Memory) (x y : Coord) (v : Lane) {k : Nat} (hk : k < 8) :
    (saveLane m x y v).read (laneOffset x y + k) = (v >>> (8 * k)).setWidth 8 := by
  rw [read_saveLane, if_pos (by omega), Nat.add_sub_cancel_left, laneByte_eq_shift]

theorem read_saveLane_outside (m : Memory) (x y : Coord) (v : Lane) {a : Nat}
    (ha : a < laneOffset x y ∨ laneOffset x y + 8 ≤ a) : (saveLane m x y v).read a = m.read a := by
  rw [read_saveLane, if_neg (by omega)]

/-- R112: byte k of the lane is XORed with byte k of the value. -/
theorem read_xorLane_byte (m : Memory) (x y : Coord) (v : Lane) {k : Nat} (hk : k < 8) :
    (xorLane m x y v).read (laneOffset x y + k) = m.read (laneOffset x y + k) ^^^ (v >>> (8 * k)).setWidth 8 := by
  rw [read_xorLane, if_pos (by omega), Nat.add_sub_cancel_left, laneByte_eq_shift]

theorem read_xorLane_outside (m : Memory) (x y : Coord) (v : Lane) {a : Nat}
    (ha : a < laneOffset x y ∨ laneOffset x y + 8 ≤ a) : (xorLane m x y v).read a = m.read a := by
  rw [read_xorLane, if_neg (by omega)]

/-! ## XORLANE as a SAVELANE -/

theorem readN_congr {m m' : Memory} {a n : Nat} (h : ∀ b, a ≤ b → m.read b = m'.read b) : m.readN a n = m'.readN a n := by
  induction n generalizing a with
  | zero => rfl
  | succ n ih => rw [Memory.readN, Memory.readN, h a le_rfl, ih fun b hb => h b (by omega)]

/-- The bytes behind the first of a little-endian number XORed with `v` are those of its quotient XORed with that of
`v`: no bit of one byte reaches another ("independently", R112). -/
theorem readN_succ_xor_div (m : Memory) (a n v : Nat) :
    (m.readN a (n + 1) ^^^ v) / 256 = m.readN (a + 1) n ^^^ v / 256 := by
  have hbyte : (m.read a).toNat < 256 := (m.read a).isLt
  rw [show 256 = 2 ^ 8 by rfl, Nat.xor_div_two_pow, Memory.readN, show 2 ^ 8 = 256 by rfl]
  congr 1
  omega

theorem readN_succ_xor_byte (m : Memory) (a n v : Nat) :
    BitVec.ofNat 8 (m.readN a (n + 1) ^^^ v) = m.read a ^^^ BitVec.ofNat 8 v := by
  have hfirst : BitVec.ofNat 8 (m.readN a (n + 1)) = m.read a := by
    apply BitVec.eq_of_toNat_eq
    have hbyte : (m.read a).toNat < 256 := (m.read a).isLt
    rw [BitVec.toNat_ofNat, Memory.readN]
    omega
  rw [← hfirst, BitVec.ofNat_xor]

/-- XORing bytes into a memory is writing the XOR of what they read as, whether or not the memory is canonical. -/
theorem xorN_eq_writeN (m : Memory) (a n v : Nat) : m.xorN a n v = m.writeN a n (m.readN a n ^^^ v) := by
  induction n generalizing m a v with
  | zero => rfl
  | succ n ih =>
    have hbehind : (m.write a (m.read a ^^^ BitVec.ofNat 8 v)).readN (a + 1) n = m.readN (a + 1) n :=
      readN_congr fun b hb => Memory.read_write_other m (by omega) _
    rw [Memory.xorN, Memory.writeN, readN_succ_xor_byte, readN_succ_xor_div, ih, hbehind]

/-- R113: a lane XOR is the assignment of the XOR. -/
theorem xorLane_eq_saveLane (m : Memory) (x y : Coord) (v : Lane) :
    xorLane m x y v = saveLane m x y (loadLane m x y ^^^ v) := by
  rw [xorLane, saveLane, xorN_eq_writeN, BitVec.toNat_xor, loadLane_toNat]

/-! ## A lane operation that changes no lane restores a canonical memory -/

theorem saveLane_loadLane {m : Memory} (w : m.wf = true) (x y : Coord) : saveLane m x y (loadLane m x y) = m := by
  refine Memory.ext_of_lanes (wf_saveLane w x y _) w fun x' y' => ?_
  rw [loadLane_saveLane]
  split
  · next h =>
    obtain ⟨rfl, rfl⟩ := h
    rfl
  · rfl

theorem xorLane_zero {m : Memory} (w : m.wf = true) (x y : Coord) : xorLane m x y 0 = m := by
  have hsame : loadLane m x y ^^^ 0 = loadLane m x y := BitVec.xor_zero
  rw [xorLane_eq_saveLane, hsame, saveLane_loadLane w]

theorem xorLane_xorLane {m : Memory} (w : m.wf = true) (x y : Coord) (v : Lane) :
    xorLane (xorLane m x y v) x y v = m := by
  refine Memory.ext_of_lanes (wf_xorLane (wf_xorLane w x y v) x y v) w fun x' y' => ?_
  simp only [loadLane_xorLane, and_self, if_true]
  split
  · next h =>
    obtain ⟨rfl, rfl⟩ := h
    rw [BitVec.xor_assoc, BitVec.xor_self, BitVec.xor_zero]
  · rfl

/-! ## The operations -/

theorem exec_loadlane (x y : Coord) (s : State) :
    exec (.loadlane x y) s = .next (s.giveResult (.lane (loadLane s.S x y))) := rfl

theorem exec_savelane (x y : Coord) (v : Lane) (s : State) :
    exec (.savelane x y v) s = .next (s.setS (saveLane s.S x y v)) := rfl

theorem exec_xorlane (x y : Coord) (v : Lane) (s : State) :
    exec (.xorlane x y v) s = .next (s.setS (xorLane s.S x y v)) := rfl

/-- Settles O29: the bytes of a lane write, the lane assignment read back, and an assignment of the lane's own value. -/
theorem savelaneWritesTheLane : Obligations.SavelaneWritesTheLane := by
  refine ⟨fun _ _ _ => ⟨rfl, rfl⟩, fun x y v s => ⟨_, exec_savelane x y v s, rfl,
    fun k hk => read_saveLane_byte s.S x y v hk, fun a ha => read_saveLane_outside s.S x y v ha, ?_⟩, fun x y s w => ?_⟩
  · rw [exec_loadlane, State.setS_S, loadLane_saveLane, if_pos ⟨rfl, rfl⟩]
    rfl
  · rw [exec_savelane, saveLane_loadLane w]
    rfl

/-- Settles O30: the bytes of a lane XOR; XORing nothing, or twice the same, leaves every lane as it was. -/
theorem xorlaneXorsEachByte : Obligations.XorlaneXorsEachByte := by
  refine ⟨fun _ _ _ => ⟨rfl, rfl⟩, fun x y v s => ⟨_, exec_xorlane x y v s, rfl,
    fun k hk => read_xorLane_byte s.S x y v hk, fun a ha => read_xorLane_outside s.S x y v ha⟩,
    fun x y v s w => ⟨?_, ?_⟩⟩
  · rw [exec_xorlane, xorLane_zero w]
    rfl
  · rw [execAll_cons (exec_xorlane x y v s), execAll_cons (exec_xorlane x y v _), State.setS_S, xorLane_xorLane w]
    rfl

/-- Settles O31: the lane view of the three operations, and a lane XOR as the assignment of the XOR. -/
theorem laneCodecActsOnLanes : Obligations.LaneCodecActsOnLanes := by
  intro x y v s
  refine ⟨rfl, ⟨_, exec_savelane x y v s, fun x' y' => ?_⟩, ⟨_, exec_xorlane x y v s, fun x' y' => ?_⟩, ?_⟩
  · simp only [State.setS_S, loadLane_saveLane, eq_comm]
  · simp only [State.setS_S, loadLane_xorLane, eq_comm]
  · rw [exec_xorlane, exec_savelane, xorLane_eq_saveLane]

end Sys2Proof.Proofs
end

section
/-! PROOFS. The round-constant generator (R121 to R123, R135): one step in value form, any number of LFSRSTEPs at once, the
orbit of the seed, what IOTA does with the bits, and KECCAKF as the seed and 24 ROUNDs (R137). -/

namespace Sys2Proof.Proofs

open Sys2Proof.Machine Sys2Proof.Claims

/-! ## One step of the generator -/

theorem highBit_set_iff (l : Byte) : l &&& 0x80#8 ≠ 0#8 ↔ 128 ≤ l.toNat := by
  revert l
  decide +kernel

/-- R121: the shift in 8 bits is twice the number modulo 256. -/
theorem lfsrNext_eq_advance (l : Byte) : lfsrNext l = advance l := by
  have hshift : l <<< 1 = BitVec.ofNat 8 (2 * l.toNat % 256) := by
    apply BitVec.eq_of_toNat_eq
    rw [BitVec.toNat_shiftLeft, BitVec.toNat_ofNat, Nat.shiftLeft_eq]
    omega
  simp only [lfsrNext, advance, highBit_set_iff, hshift]
  split
  · rw [BitVec.ofNat_xor]
  · rw [Nat.xor_zero]

theorem lfsrBit_eq (l : Byte) : lfsrBit l = BitVec.ofNat 1 (l.toNat % 2) := by
  apply BitVec.eq_of_toNat_eq
  rw [lfsrBit, BitVec.toNat_setWidth, BitVec.toNat_ofNat]
  omega

/-- R123: the step leads to 0 from 0 only. -/
theorem lfsrNext_ne_zero {l : Byte} (h : l ≠ 0) : lfsrNext l ≠ 0 := by
  revert l
  decide +kernel

theorem exec_lfsrstep (s : State) :
    exec .lfsrstep s = .next ((s.setLFSR (lfsrNext s.LFSR)).giveResult (.bit (lfsrBit s.LFSR))) := rfl

/-- Settles O33: the step of the model in value form. -/
theorem lfsrstepAdvances : Obligations.LfsrstepAdvances := by
  refine ⟨⟨rfl, rfl⟩, fun s => ?_⟩
  rw [exec_lfsrstep, lfsrNext_eq_advance, lfsrBit_eq]
  rfl

/-! ## Any number of steps -/

/-- The bits that n steps from `l` return, in order (R123). -/
def generatedBits (l : Byte) (n : Nat) : List (BitVec 1) := (List.iterate lfsrNext l n).map lfsrBit

/-- The state after n LFSRSTEPs. -/
def afterSteps (s : State) (n : Nat) : State :=
  { s with LFSR := lfsrNext^[n] s.LFSR, results := s.results ++ (generatedBits s.LFSR n).map .bit }

theorem afterSteps_zero (s : State) : afterSteps s 0 = s := by
  ext1 <;> simp [afterSteps, generatedBits]

theorem afterSteps_succ (s : State) (n : Nat) :
    afterSteps ((s.setLFSR (lfsrNext s.LFSR)).giveResult (.bit (lfsrBit s.LFSR))) n = afterSteps s (n + 1) := by
  ext1 <;> simp [afterSteps, generatedBits]

/-- Any number of LFSRSTEPs completes, whatever the state. -/
theorem execAll_lfsrsteps (s : State) (n : Nat) :
    execAll (List.replicate n .lfsrstep) s = .next (afterSteps s n) := by
  induction n generalizing s with
  | zero => rw [afterSteps_zero]; rfl
  | succ n ih => rw [List.replicate_succ, execAll_cons (exec_lfsrstep s), ih, afterSteps_succ]

/-! ## The orbit of the seed (R123) -/

/-- The seed is back after 255 steps. -/
theorem seed_period : Function.IsPeriodicPt lfsrNext 255 lfsrSeed := by
  decide +kernel

/-- The seed is not back before: else it would be after a third, a fifth or a seventeenth of 255 steps. -/
theorem minimalPeriod_seed : Function.minimalPeriod lfsrNext lfsrSeed = 255 := by
  have hnot : ∀ k ∈ [85, 51, 15], ¬ Function.IsPeriodicPt lfsrNext k lfsrSeed := by decide +kernel
  have hdivisor : ∀ d ∈ Nat.divisors 255, d = 255 ∨ ∃ k ∈ [85, 51, 15], d ∣ k := by decide +kernel
  obtain h | ⟨k, hk, hdvd⟩ := hdivisor _ (Nat.mem_divisors.mpr ⟨seed_period.minimalPeriod_dvd, by decide⟩)
  · exact h
  · exact absurd (Function.isPeriodicPt_iff_minimalPeriod_dvd.mpr hdvd) (hnot k hk)

theorem iterate_seed_eq_seed_iff (n : Nat) : lfsrNext^[n] lfsrSeed = lfsrSeed ↔ n % 255 = 0 := by
  have hdvd := Function.isPeriodicPt_iff_minimalPeriod_dvd (f := lfsrNext) (x := lfsrSeed) (n := n)
  rw [minimalPeriod_seed, Nat.dvd_iff_mod_eq_zero] at hdvd
  exact hdvd

theorem iterate_seed_ne_zero (n : Nat) : lfsrNext^[n] lfsrSeed ≠ 0 :=
  iterate_keeps (· ≠ 0) lfsrNext (fun _ => lfsrNext_ne_zero) n lfsrSeed (by decide)

theorem iterate_seed_of_getElem? {vs : List Byte} (h : vs = List.iterate lfsrNext lfsrSeed vs.length)
    {n : Nat} {v : Byte} (hv : vs[n]? = some v) : lfsrNext^[n] lfsrSeed = v := by
  obtain ⟨hn, -⟩ := List.getElem?_eq_some_iff.mp hv
  rw [h, List.getElem?_iterate _ _ _ _ hn] at hv
  exact Option.some.inj hv

/-- Settles O34: n steps at once, and the orbit of the seed. -/
theorem generatorSequence : Obligations.GeneratorSequence := by
  intro n s hs
  have hL : (afterSteps s n).LFSR = lfsrNext^[n] lfsrSeed := congrArg lfsrNext^[n] hs
  refine ⟨afterSteps s n, execAll_lfsrsteps s n, rfl, ?_, ?_, ?_, fun v hv => ?_, ?_⟩
  · exact hL ▸ iterate_seed_eq_seed_iff n
  · exact hL ▸ iterate_seed_ne_zero n
  · rintro rfl
    rw [hL]
    decide +kernel
  · exact hL ▸ iterate_seed_of_getElem? (by decide +kernel) hv
  · rintro rfl
    rw [afterSteps, hs]
    rfl

/-! ## What IOTA makes of the bits (R134, R135) -/

/-- The OR of the first n bits, each at its place: `roundConstant` is the one of seven bits. -/
def constantUpTo (l : Byte) (n : Nat) : Lane :=
  (List.range n).foldl (fun c j => c ||| (BitVec.ofNat 64 (generatorBit l j) <<< (2 ^ j - 1))) 0

theorem constantUpTo_succ (l : Byte) (n : Nat) :
    constantUpTo l (n + 1) = constantUpTo l n ||| BitVec.ofNat 64 (generatorBit l n) <<< (2 ^ n - 1) := by
  simp [constantUpTo, List.range_succ]

/-- The first n bits stand below the place of bit n. -/
theorem constantUpTo_getLsbD (l : Byte) {n i : Nat} (h : 2 ^ n - 1 ≤ i) : (constantUpTo l n).getLsbD i = false := by
  induction n generalizing i with
  | zero => simp [constantUpTo]
  | succ n ih =>
    have hbit : generatorBit l n < 2 ^ (i - (2 ^ n - 1)) := by
      have hplace : 2 ^ (n + 1) = 2 * 2 ^ n := Nat.pow_succ'
      have hpos : 0 < 2 ^ n := Nat.two_pow_pos n
      calc generatorBit l n < 2 ^ 1 := Nat.mod_lt _ (by decide)
        _ ≤ 2 ^ (i - (2 ^ n - 1)) := Nat.pow_le_pow_right (by decide) (by omega)
    rw [constantUpTo_succ, BitVec.getLsbD_or, ih (by omega), BitVec.getLsbD_shiftLeft, BitVec.getLsbD_ofNat,
      Nat.testBit_lt_two_pow hbit]
    simp

/-- No two bits have one place, so the OR of R134 is the XOR that IOTA builds up step by step. -/
theorem constantUpTo_succ_xor (l : Byte) (n : Nat) :
    constantUpTo l (n + 1) = constantUpTo l n ^^^ BitVec.ofNat 64 (generatorBit l n) <<< (2 ^ n - 1) := by
  rw [constantUpTo_succ]
  apply BitVec.eq_of_getLsbD_eq
  intro i hi
  rw [BitVec.getLsbD_or, BitVec.getLsbD_xor]
  rcases Nat.lt_or_ge i (2 ^ n - 1) with h | h
  · simp [h]
  · simp [constantUpTo_getLsbD l h]

theorem loadLane_iotaStep (e : Engine) (j : Nat) :
    loadLane (iotaStep e j).1 0 0 = loadLane e.1 0 0 ^^^ BitVec.ofNat 64 (e.2.toNat % 2) <<< (2 ^ j - 1) := by
  rw [iotaStep, lfsrBit_eq]
  rcases Nat.mod_two_eq_zero_or_one e.2.toNat with h | h <;> rw [h]
  · simp
  · simp [loadLane_xorLane, iotaMask]

/-- One index of IOTA writes the bytes of lane (0,0) only. -/
theorem read_iotaStep (e : Engine) (j : Nat) {a : Nat} (ha : 8 ≤ a) : (iotaStep e j).1.read a = e.1.read a := by
  rw [iotaStep]
  split
  · exact read_xorLane_outside e.1 0 0 _ (.inr ha)
  · rfl

/-- IOTA cut off after n indices; `iota` is the one of seven. -/
def iotaUpTo (e : Engine) (n : Nat) : Engine := (List.range n).foldl iotaStep e

theorem iotaUpTo_succ (e : Engine) (n : Nat) : iotaUpTo e (n + 1) = iotaStep (iotaUpTo e n) n := by
  simp [iotaUpTo, List.range_succ]

theorem iotaUpTo_snd (e : Engine) (n : Nat) : (iotaUpTo e n).2 = advance^[n] e.2 := by
  induction n with
  | zero => rfl
  | succ n ih => rw [iotaUpTo_succ, iotaStep, ih, lfsrNext_eq_advance, Function.iterate_succ_apply']

theorem loadLane_iotaUpTo (e : Engine) (n : Nat) :
    loadLane (iotaUpTo e n).1 0 0 = loadLane e.1 0 0 ^^^ constantUpTo e.2 n := by
  induction n with
  | zero => exact BitVec.xor_zero.symm
  | succ n ih =>
    rw [iotaUpTo_succ, loadLane_iotaStep, ih, iotaUpTo_snd, constantUpTo_succ_xor, BitVec.xor_assoc, generatorBit]

/-- R134: IOTA XORs the constant of the value on entry into lane (0,0). -/
theorem loadLane_iota (e : Engine) : loadLane (iota e).1 0 0 = loadLane e.1 0 0 ^^^ roundConstant e.2 :=
  loadLane_iotaUpTo e 7

theorem read_iota (e : Engine) {a : Nat} (ha : 8 ≤ a) : (iota e).1.read a = e.1.read a :=
  foldl_keeps (fun e' => e'.1.read a = e.1.read a) iotaStep (fun e' j h => (read_iotaStep e' j ha).trans h) _ e rfl

theorem exec_iota (s : State) : exec .iota s = .next (s.setEngine (iota (s.S, s.LFSR))) := rfl

/-! ## The table of R135 -/

/-- What the generator of the model makes of the value on entry of a row of the table: the row's bits, its constant, and
the value after the seven steps. -/
def RowAgrees (row : ConstantRow) (next : Byte) : Prop :=
  generatedBits row.lfsrIn 7 = row.bits.map (BitVec.ofNat 1) ∧ roundConstant row.lfsrIn = row.rc ∧
  lfsrNext^[7] row.lfsrIn = next

theorem rowAgrees_of_getElem? {i : Nat} {row : ConstantRow} (h : constantsTable[i]? = some row) :
    RowAgrees row (entryAfter i) := by
  have hrows : ∀ e ∈ constantsTable.zipIdx, RowAgrees e.1 (entryAfter e.2) := by
    unfold RowAgrees
    decide +kernel
  exact hrows (row, i) (List.mk_mem_zipIdx_iff_getElem?.mpr h)

/-- R135: each round takes up the generator where the round before left it, the first at the seed. -/
theorem iterate_seed_eq_lfsrIn {i : Nat} {row : ConstantRow} (h : constantsTable[i]? = some row) :
    lfsrNext^[7 * i] lfsrSeed = row.lfsrIn := by
  induction i generalizing row with
  | zero =>
    obtain rfl := Option.some.inj h
    rfl
  | succ i ih =>
    obtain ⟨hi, -⟩ := List.getElem?_eq_some_iff.mp h
    have hprev : constantsTable[i]? = some constantsTable[i] := List.getElem?_eq_getElem (by omega)
    obtain ⟨-, -, hnext⟩ := rowAgrees_of_getElem? hprev
    rw [Nat.mul_succ, Nat.add_comm, Function.iterate_add_apply, ih hprev, hnext, entryAfter, h]
    rfl

/-- Settles O39: 7i steps reach the row's value on entry; from there the row's facts give the seven steps and the IOTA. -/
theorem roundConstantTable : Obligations.RoundConstantTable := by
  intro i hi
  obtain ⟨row, hrow⟩ : ∃ row, constantsTable[i]? = some row := ⟨_, List.getElem?_eq_getElem hi⟩
  obtain ⟨hbits, hrc, hnext⟩ := rowAgrees_of_getElem? hrow
  refine ⟨row, hrow, fun s hs => ?_, fun s hs => ?_⟩
  · have hentry : (afterSteps s (7 * i)).LFSR = row.lfsrIn := by
      rw [← iterate_seed_eq_lfsrIn hrow]
      exact congrArg lfsrNext^[7 * i] hs
    refine ⟨_, _, execAll_lfsrsteps s _, hentry, execAll_lfsrsteps _ 7, ?_, ?_⟩
    · rw [← hnext, ← hentry]
      rfl
    · have hresults : row.bits.map (fun b => UnitResult.bit (BitVec.ofNat 1 b)) =
          (generatedBits row.lfsrIn 7).map .bit := by
        rw [hbits, List.map_map]
        rfl
      rw [hresults, ← hentry]
      rfl
  · have hadvance : (iota (s.S, s.LFSR)).2 = entryAfter i := by rw [iota_snd, hs, hnext]
    refine ⟨_, exec_iota s, ?_, ?_, fun a ha => read_iota _ ha⟩
    · rw [← hadvance]
      rfl
    · rw [← hrc, ← hs]
      exact loadLane_iota _

/-! ## KECCAKF as the seed and 24 ROUNDs (R137) -/

theorem exec_round (s : State) : exec .round s = .next (s.setEngine (keccakRound (s.S, s.LFSR))) := rfl

theorem exec_keccakf (s : State) : exec .keccakf s = .next (permute s) := rfl

theorem permute_eq (s : State) : permute s = { s with S := (keccakf s.S).1, LFSR := 0x8E } := by
  rw [← keccakf_snd s.S]
  rfl

/-- Any number of ROUNDs is that iteration on `S` and LFSR. -/
theorem execAll_rounds (s : State) (n : Nat) :
    execAll (List.replicate n .round) s = .next (s.setEngine (keccakRound^[n] (s.S, s.LFSR))) := by
  induction n generalizing s with
  | zero => rfl
  | succ n ih =>
    rw [List.replicate_succ, execAll_cons (exec_round s), ih]
    rfl

theorem decode_cmd_ne_keccakf (record : List Byte) : decode .cmd record ≠ .ok .keccakf := by
  intro h
  obtain ⟨hformat, -⟩ := decodedRecordsAreEncodings .cmd record .keccakf h
  cases hformat

/-- Settles O41: a permutation is the iteration of the round from the seed, and `S` alone goes into it. -/
theorem keccakfIsSeedAndRounds : Obligations.KeccakfIsSeedAndRounds := by
  refine ⟨⟨rfl, rfl⟩, fun s => ⟨?_, permute s, exec_keccakf s, permute_eq s⟩, fun s s' t t' hS ht ht' => ?_,
    decode_cmd_ne_keccakf⟩
  · rw [execAll_rounds]
    rfl
  · obtain rfl := Host.Outcome.next.inj ht
    obtain rfl := Host.Outcome.next.inj ht'
    rw [permute_S, permute_S, hS]

end Sys2Proof.Proofs
end

section
/-! PROOFS. THETA and CHI (R130, R133) on the 25 lanes: the loops over the coordinates meet each lane once, so every lane
is a function of the lanes on entry. -/

namespace Sys2Proof.Proofs

open Sys2Proof.Machine Sys2Proof.Claims

/-! ## Loops over the five coordinates -/

theorem foldl_observed_other {β γ : Type} {f : β → Coord → β} {g : β → γ} {c : Coord}
    (hother : ∀ b a, a ≠ c → g (f b a) = g b) {l : List Coord} (hc : c ∉ l) (b : β) : g (l.foldl f b) = g b := by
  induction l generalizing b with
  | nil => rfl
  | cons a l ih =>
    obtain ⟨ha, hl⟩ := List.ne_and_not_mem_of_not_mem_cons hc
    rw [List.foldl_cons, ih hl, hother b a ha.symm]

/-- What only the turn of coordinate `c` changes is changed by the loop as by that one turn. -/
theorem foldl_coords_observed {β γ : Type} {f : β → Coord → β} {g : β → γ} {h : γ → γ} (c : Coord)
    (hother : ∀ b a, a ≠ c → g (f b a) = g b) (hturn : ∀ b, g (f b c) = h (g b)) (b : β) :
    g (coords.foldl f b) = h (g b) := by
  have honce : ∀ c : Coord, c ∉ coords.take c.val ∧ c ∉ coords.drop (c.val + 1) ∧
      coords = coords.take c.val ++ c :: coords.drop (c.val + 1) := by decide
  obtain ⟨hbefore, hafter, hsplit⟩ := honce c
  rw [hsplit, List.foldl_append, List.foldl_cons, foldl_observed_other hother hafter, hturn,
    foldl_observed_other hother hbefore]

/-! ## Bytes beyond `S` -/

theorem read_saveLane_beyond (m : Memory) (x y : Coord) (v : Lane) {a : Nat} (ha : Config.stateBytes ≤ a) :
    (saveLane m x y v).read a = m.read a :=
  read_saveLane_outside m x y v (.inr ((laneOffset_lt x y).trans ha))

theorem read_xorLane_beyond (m : Memory) (x y : Coord) (v : Lane) {a : Nat} (ha : Config.stateBytes ≤ a) :
    (xorLane m x y v).read a = m.read a :=
  read_xorLane_outside m x y v (.inr ((laneOffset_lt x y).trans ha))

/-! ## THETA -/

theorem loadLane_xorColumn (m : Memory) (x : Coord) (d : Lane) (x' y' : Coord) :
    loadLane (xorColumn m x d) x' y' = if x = x' then loadLane m x' y' ^^^ d else loadLane m x' y' := by
  refine foldl_coords_observed (g := fun m' => loadLane m' x' y') (h := fun v => if x = x' then v ^^^ d else v) y'
    (fun m' y hy => ?_) (fun m' => ?_) m
  · rw [loadLane_xorLane, if_neg fun h => hy h.2]
  · rw [loadLane_xorLane]
    split
    · next h => rw [h.1, if_pos rfl]
    · next h => rw [if_neg fun hx => h ⟨hx, rfl⟩]

theorem thetaEffect_eq (m : Memory) (x : Coord) :
    thetaEffect m x = parity m (x + 4) ^^^ (parity m (x + 1)).rotateLeft 1 := by
  rw [thetaEffect, rotl64_eq_rotateLeft _ (by decide)]
  rfl

/-- R130: THETA is θ on the lanes. -/
theorem loadLane_theta (m : Memory) : loadLane (theta m) = laneTheta (loadLane m) := by
  funext x y
  have hloop : loadLane (theta m) x y = loadLane m x y ^^^ thetaEffect m x :=
    foldl_coords_observed (g := fun m' => loadLane m' x y) (h := (· ^^^ thetaEffect m x)) x
      (fun m' a ha => by rw [loadLane_xorColumn, if_neg ha])
      (fun m' => by rw [loadLane_xorColumn, if_pos rfl]) m
  rw [hloop, thetaEffect_eq]
  rfl

theorem read_theta_beyond (m : Memory) {a : Nat} (ha : Config.stateBytes ≤ a) : (theta m).read a = m.read a := by
  have hcolumn (m' : Memory) (x : Coord) (d : Lane) : (xorColumn m' x d).read a = m'.read a :=
    foldl_keeps (fun n => n.read a = m'.read a) _ (fun n y h => (read_xorLane_beyond n x y d ha).trans h) coords m' rfl
  exact foldl_keeps (fun n => n.read a = m.read a) _ (fun n x h => (hcolumn n x _).trans h) coords m rfl

theorem exec_theta (s : State) : exec .theta s = .next (s.setS (theta s.S)) := rfl

/-- Settles O35: THETA is θ on the lanes, whose parities are those of the entry state. -/
theorem thetaMixesColumns : Obligations.ThetaMixesColumns :=
  ⟨⟨rfl, rfl⟩, fun s => ⟨_, exec_theta s, rfl, fun x y => congrFun₂ (loadLane_theta s.S) x y,
    fun _ ha => read_theta_beyond s.S ha⟩⟩

/-! ## CHI -/

/-- R133: the row `y` after its turn, from the row before it. -/
theorem loadLane_chiRow (m : Memory) (y x' : Coord) : loadLane (chiRow m y) x' y = chiLane m x' y :=
  foldl_coords_observed (g := fun m' => loadLane m' x' y) (h := fun _ => chiLane m x' y) x'
    (fun m' x hx => by rw [loadLane_saveLane, if_neg fun h => hx h.1])
    (fun m' => by rw [loadLane_saveLane, if_pos ⟨rfl, rfl⟩]) m

theorem loadLane_chiRow_other (m : Memory) {y y' : Coord} (hy : y ≠ y') (x' : Coord) :
    loadLane (chiRow m y) x' y' = loadLane m x' y' :=
  foldl_keeps (fun n => loadLane n x' y' = loadLane m x' y') _
    (fun n x h => by rw [loadLane_saveLane, if_neg fun e => hy e.2, h]) coords m rfl

/-- χ on the five lanes of one row (R133). -/
def rowChi (row : Coord → Lane) : Coord → Lane := fun x => row x ^^^ (~~~ row (x + 1) &&& row (x + 2))

/-- R133: CHI is χ on the lanes. -/
theorem loadLane_chi (m : Memory) : loadLane (chi m) = laneChi (loadLane m) := by
  funext x y
  have hrow : (fun x' => loadLane (chi m) x' y) = rowChi (fun x' => loadLane m x' y) :=
    foldl_coords_observed (g := fun m' x' => loadLane m' x' y) (h := rowChi) y
      (fun m' y' hy => funext fun x' => loadLane_chiRow_other m' hy x')
      (fun m' => funext fun x' => loadLane_chiRow m' y x') m
  exact congrFun hrow x

theorem read_chi_beyond (m : Memory) {a : Nat} (ha : Config.stateBytes ≤ a) : (chi m).read a = m.read a := by
  have hrow (m' : Memory) (y : Coord) : (chiRow m' y).read a = m'.read a :=
    foldl_keeps (fun n => n.read a = m'.read a) _ (fun n x h => (read_saveLane_beyond n x y _ ha).trans h) coords m' rfl
  exact foldl_keeps (fun n => n.read a = m.read a) chiRow (fun n y h => (hrow n y).trans h) coords m rfl

theorem exec_chi (s : State) : exec .chi s = .next (s.setS (chi s.S)) := rfl

/-- Settles O37: CHI is χ on the lanes, whose right-hand sides are those of the entry state. -/
theorem chiUsesTheRowOnEntry : Obligations.ChiUsesTheRowOnEntry :=
  ⟨⟨rfl, rfl⟩, fun s => ⟨_, exec_chi s, rfl, fun x y => congrFun₂ (loadLane_chi s.S) x y,
    fun _ ha => read_chi_beyond s.S ha⟩⟩

end Sys2Proof.Proofs
end

section
/-! PROOFS. RHOPI (R131, R132): the walk makes the moves of the table one by one, and every lane in hand is one that no
move before has reached, so all sources are taken from the entry state. -/

namespace Sys2Proof.Proofs

open Sys2Proof.Machine Sys2Proof.Claims

/-! ## The table of R132 -/

/-- R131: a row of the table is the walk's move from its source, and the next row begins where it ends. -/
theorem exists_walkTable_row : ∀ t < 24, ∃ w, walkTable[t]? = some w ∧ w.r = ((t + 1) * (t + 2) / 2) % 64 ∧
    w.dst.1 = w.src.2 ∧ w.dst.2.val = (2 * w.src.1.val + 3 * w.src.2.val) % 5 ∧
    (walkTable[(t + 1) % 24]?).map WalkRow.src = some w.dst := by
  intro t ht
  refine ⟨walkTable[t]'ht, List.getElem?_eq_getElem ht, ?_⟩
  revert t
  decide

theorem mem_walkTable_dst_iff : ∀ p : Coord × Coord, p ≠ (0, 0) ↔ p ∈ walkTable.map WalkRow.dst := by decide

theorem nodup_walkTable_dst : (walkTable.map WalkRow.dst).Nodup := by decide

/-- No row before row n has its destination. -/
theorem dst_not_mem_take {n : Nat} {w : WalkRow} (h : walkTable[n]? = some w) :
    w.dst ∉ (walkTable.take n).map WalkRow.dst := by
  have hnodup : ((walkTable.take (n + 1)).map WalkRow.dst).Nodup :=
    nodup_walkTable_dst.sublist ((List.take_sublist _ _).map _)
  rw [List.take_add_one, h, List.map_append, List.nodup_append] at hnodup
  obtain ⟨-, -, hapart⟩ := hnodup
  exact fun hmem => hapart _ hmem _ (List.mem_singleton_self _) rfl

theorem rhoAmount_lt (t : Nat) : rhoAmount t < 64 := Nat.mod_lt _ (by decide)

/-! ## Moves taken simultaneously -/

/-- The moves of a list of rows, all sources taken from `A` (R131). -/
def laneMoves (rows : List WalkRow) (A : Lanes) : Lanes := fun x y =>
  match rows.find? (fun w => w.dst == (x, y)) with
  | some w => (A w.src.1 w.src.2).rotateLeft w.r
  | none => A x y

theorem laneMoves_walkTable (A : Lanes) : laneMoves walkTable A = laneRhoPi A := rfl

theorem laneMoves_of_not_mem {rows : List WalkRow} {x y : Coord} (h : (x, y) ∉ rows.map WalkRow.dst) (A : Lanes) :
    laneMoves rows A x y = A x y := by
  have hnone : rows.find? (fun w => w.dst == (x, y)) = none :=
    List.find?_eq_none.mpr fun w hw he => h (List.mem_map.mpr ⟨w, hw, eq_of_beq he⟩)
  rw [laneMoves, hnone]

/-- One more move writes its own destination only, when no move before has written that. -/
theorem laneMoves_concat {rows : List WalkRow} {w : WalkRow} (hnew : w.dst ∉ rows.map WalkRow.dst) (A : Lanes)
    (x y : Coord) : laneMoves (rows ++ [w]) A x y =
      if w.dst = (x, y) then (A w.src.1 w.src.2).rotateLeft w.r else laneMoves rows A x y := by
  split
  · next h =>
    have hnone : rows.find? (fun v => v.dst == (x, y)) = none :=
      List.find?_eq_none.mpr fun v hv he => hnew (h ▸ List.mem_map.mpr ⟨v, hv, eq_of_beq he⟩)
    simp [laneMoves, hnone, h]
  · next h => simp [laneMoves, h]

/-! ## The walk -/

/-- RHOPI's walk after n iterations (R131). -/
def walkUpTo (m : Memory) (n : Nat) : RhoWalk :=
  (List.range n).foldl rhoStep { x := 1, y := 0, hand := loadLane m 1 0, S := m }

theorem rhopi_eq_walkUpTo (m : Memory) : rhopi m = (walkUpTo m 24).S := rfl

theorem walkUpTo_succ (m : Memory) (n : Nat) : walkUpTo m (n + 1) = rhoStep (walkUpTo m n) n := by
  simp [walkUpTo, List.range_succ]

/-- What holds of a walk over `m` after n iterations: it stands at the source of the next row with that lane's entry
value in hand, and has made the first n moves. -/
structure WalkedTo (m : Memory) (n : Nat) (v : RhoWalk) : Prop where
  stands : (walkTable[n % 24]?).map WalkRow.src = some (v.x, v.y)
  hand : v.hand = loadLane m v.x v.y
  moved : loadLane v.S = laneMoves (walkTable.take n) (loadLane m)

theorem WalkedTo.next {m : Memory} {n : Nat} {v : RhoWalk} (hn : n < 24) (hv : WalkedTo m n v) :
    WalkedTo m (n + 1) (rhoStep v n) := by
  obtain ⟨w, hw, hr, hx, hy, hnext⟩ := exists_walkTable_row n hn
  obtain ⟨hstands, hhand, hmoved⟩ := hv
  have hsrc : w.src = (v.x, v.y) := by
    rw [Nat.mod_eq_of_lt hn, hw] at hstands
    exact Option.some.inj hstands
  have hdst : w.dst = (v.y, piRow v.x v.y) := by
    rw [hsrc] at hx hy
    exact Prod.ext hx (Fin.ext hy)
  have htake : walkTable.take (n + 1) = walkTable.take n ++ [w] := by rw [List.take_add_one, hw]; rfl
  have hrot : w.r = rhoAmount n := hr
  have hnew := dst_not_mem_take hw
  refine ⟨hnext.trans (congrArg some hdst), ?_, ?_⟩
  · rw [rhoStep_hand, rhoStep_x, rhoStep_y, hmoved, laneMoves_of_not_mem (hdst ▸ hnew)]
  · funext x y
    rw [rhoStep_S, loadLane_saveLane, htake, laneMoves_concat hnew, ← hmoved, hhand, hsrc, hdst, hrot,
      rotl64_eq_rotateLeft _ (rhoAmount_lt n)]
    simp only [Prod.mk.injEq]

theorem walkedTo_walkUpTo (m : Memory) {n : Nat} (hn : n ≤ 24) : WalkedTo m n (walkUpTo m n) := by
  induction n with
  | zero => exact ⟨rfl, rfl, rfl⟩
  | succ n ih =>
    rw [walkUpTo_succ]
    exact (ih (by omega)).next hn

/-- R131, R132: RHOPI is ρ and π on the lanes. -/
theorem loadLane_rhopi (m : Memory) : loadLane (rhopi m) = laneRhoPi (loadLane m) := by
  rw [rhopi_eq_walkUpTo, (walkedTo_walkUpTo m le_rfl).moved, ← laneMoves_walkTable]
  rfl

theorem read_rhopi_beyond (m : Memory) {a : Nat} (ha : Config.stateBytes ≤ a) : (rhopi m).read a = m.read a :=
  foldl_keeps (fun v : RhoWalk => v.S.read a = m.read a) rhoStep
    (fun v _ h => (read_saveLane_beyond v.S _ _ _ ha).trans h) (List.range 24) _ rfl

theorem laneRhoPi_dst (A : Lanes) {w : WalkRow} (hw : w ∈ walkTable) :
    laneRhoPi A w.dst.1 w.dst.2 = (A w.src.1 w.src.2).rotateLeft w.r := by
  have hfind : ∀ w ∈ walkTable, walkTable.find? (fun v => v.dst == (w.dst.1, w.dst.2)) = some w := by decide
  rw [laneRhoPi, hfind w hw]

theorem exec_rhopi (s : State) : exec .rhopi s = .next (s.setS (rhopi s.S)) := rfl

/-- Settles O36: RHOPI is ρ and π on the lanes; the rest is about the table. -/
theorem rhopiMovesAndRotates : Obligations.RhopiMovesAndRotates := by
  refine ⟨⟨rfl, rfl⟩, fun s => ⟨_, exec_rhopi s, rfl, fun w hw => ?_, ?_, fun _ ha => read_rhopi_beyond s.S ha⟩,
    exists_walkTable_row, mem_walkTable_dst_iff, nodup_walkTable_dst⟩
  · rw [State.setS_S, loadLane_rhopi, laneRhoPi_dst _ hw]
  · rw [State.setS_S, loadLane_rhopi]
    rfl

end Sys2Proof.Proofs
end

section
/-! PROOFS. IOTA on the lanes (R134), ROUND as its four stages (R136), and KECCAKF as the permutation on the 25 lanes
(R130 to R137). -/

namespace Sys2Proof.Proofs

open Sys2Proof.Machine Sys2Proof.Claims

/-! ## IOTA -/

/-- R134: IOTA is ι on the lanes, with the constant of the generator's value on entry. -/
theorem loadLane_iota_eq_laneIota (e : Engine) :
    loadLane (iota e).1 = laneIota (roundConstant e.2) (loadLane e.1) := by
  funext x y
  rw [laneIota]
  split
  · next h =>
    obtain ⟨rfl, rfl⟩ := h
    exact loadLane_iota e
  · next h =>
    have hoffset : 8 ≤ laneOffset x y := (laneOffset_apart (x' := 0) (y' := 0) h).resolve_left (by simp [laneOffset])
    exact loadLane_congr fun k _ => read_iota e (by omega)

/-- Settles O38: the constant, the seven advances and the bytes left alone. -/
theorem iotaXorsTheRoundConstant : Obligations.IotaXorsTheRoundConstant := by
  refine ⟨⟨rfl, rfl⟩, fun s => ⟨_, exec_iota s, ?_, loadLane_iota _, fun _ ha => read_iota _ ha⟩⟩
  have hadvance : (iota (s.S, s.LFSR)).2 = advance^[7] s.LFSR := iotaUpTo_snd (s.S, s.LFSR) 7
  rw [← hadvance]
  rfl

/-! ## ROUND -/

/-- Settles O40: the four stages one after the other. -/
theorem roundIsFourStages : Obligations.RoundIsFourStages := by
  refine ⟨⟨rfl, rfl⟩, fun s => ⟨?_, _, exec_round s, rfl⟩⟩
  rw [exec_round, execAll_cons (exec_theta s), execAll_cons (exec_rhopi _), execAll_cons (exec_chi _),
    execAll_cons (exec_iota _)]
  rfl

/-- A round on the lanes, with the constant `rc` (R136). -/
def laneRound (rc : Lane) (A : Lanes) : Lanes := laneIota rc (laneChi (laneRhoPi (laneTheta A)))

theorem loadLane_keccakRound (e : Engine) :
    loadLane (keccakRound e).1 = laneRound (roundConstant e.2) (loadLane e.1) := by
  rw [keccakRound, loadLane_iota_eq_laneIota, loadLane_chi, loadLane_rhopi, loadLane_theta, laneRound]

/-! ## KECCAKF -/

/-- R135: the constant of the n-th round is that of the table's row. -/
theorem roundConstant_iterate_keccakRound (m : Memory) {n : Nat} {row : ConstantRow}
    (h : constantsTable[n]? = some row) : roundConstant (keccakRound^[n] (m, lfsrSeed)).2 = row.rc := by
  have hrounds : Function.Semiconj Prod.snd keccakRound lfsrNext^[7] := keccakRound_snd
  have hentry : (keccakRound^[n] (m, lfsrSeed)).2 = row.lfsrIn := by
    rw [← iterate_seed_eq_lfsrIn h, Function.iterate_mul]
    exact hrounds.iterate_right n (m, lfsrSeed)
  obtain ⟨-, hrc, -⟩ := rowAgrees_of_getElem? h
  rw [hentry, hrc]

/-- The first n rounds on the lanes, with the constants of R135. -/
def laneRounds (n : Nat) (A : Lanes) : Lanes := (constantsTable.take n).foldl (fun B row => laneRound row.rc B) A

theorem laneRounds_all (A : Lanes) : laneRounds 24 A = laneKeccak A := rfl

theorem loadLane_iterate_keccakRound (m : Memory) {n : Nat} (hn : n ≤ 24) :
    loadLane (keccakRound^[n] (m, lfsrSeed)).1 = laneRounds n (loadLane m) := by
  induction n with
  | zero => rfl
  | succ n ih =>
    obtain ⟨row, hrow⟩ : ∃ row, constantsTable[n]? = some row := ⟨_, List.getElem?_eq_getElem hn⟩
    rw [Function.iterate_succ_apply', loadLane_keccakRound, roundConstant_iterate_keccakRound m hrow, ih (by omega)]
    simp [laneRounds, List.take_add_one, hrow]

theorem loadLane_keccakf (m : Memory) : loadLane (keccakf m).1 = laneKeccak (loadLane m) := by
  rw [← laneRounds_all]
  exact loadLane_iterate_keccakRound m le_rfl

/-- Settles O42: round by round, the lanes of `S` go through the rounds on the lanes. -/
theorem keccakfRefinesTheLanePermutation : Obligations.KeccakfRefinesTheLanePermutation := fun s =>
  ⟨permute s, exec_keccakf s, permute_eq s, fun x y => congrFun₂ (loadLane_keccakf s.S) x y⟩

end Sys2Proof.Proofs
end

section
/-! PROOFS. CONSTRUCT and INITIALIZE case by case (R150, R151). -/

namespace Sys2Proof.Proofs

open Sys2Proof.Machine Sys2Proof.Claims

/-- CONSTRUCT's check of its operands is the condition of R150. -/
theorem parametersLegal_iff {r c : BitVec 16} : parametersLegal r c = true ↔ legalParameters r c := by
  simp [parametersLegal, legalParameters, and_assoc]

theorem construct_rejected {r c : BitVec 16} (hl : ¬ parametersLegal r c = true) (x : Byte) (o : BitVec 32) {s : State}
    (hp : s.PHASE = .unconfigured) : construct r c x o s = raise .invalidParameter s := by
  rw [construct, if_neg (not_not.mpr hp), if_neg hl]

theorem construct_turnedAway (r c : BitVec 16) (x : Byte) (o : BitVec 32) {s : State} (hp : s.PHASE ≠ .unconfigured) :
    construct r c x o s = raise .invalidState s := if_pos hp

/-- Settles O16: the PHASE check, the check of the operands, and the command carried out. -/
theorem constructConfigures : Obligations.ConstructConfigures := by
  refine ⟨fun r c x o => ⟨rfl, rfl⟩, fun r c x o s => ⟨fun hp hl => ?_, fun hp hl => ?_, fun hp => ?_⟩⟩
  · exact construct_carriedOut (parametersLegal_iff.mpr hl) x o hp
  · exact construct_rejected (mt parametersLegal_iff.mp hl) x o hp
  · exact construct_turnedAway r c x o hp

/-- Settles O18: the cleared memory reads 0x00 everywhere inside `S`, and in canonical form it has no entry. -/
theorem initializeClears : Obligations.InitializeClears := by
  refine ⟨⟨rfl, rfl⟩, fun s hp => ⟨_, initialise_carriedOut hp, ?_, fun a ha => ?_, fun w => ?_⟩,
    fun s hp => initialise_turnedAway hp⟩
  · ext1 <;> simp
  · have hin : a < Config.stateBytes := ha
    simp [read_clearState, hin]
  · simpa using clearState_eq_nil w

end Sys2Proof.Proofs
end

section
/-! PROOFS. ABSORB across blocks and across commands (R153, R154): a range that fills the block, and a message cut into
chunks. -/

namespace Sys2Proof.Proofs

open Sys2Proof.Machine Sys2Proof.Claims

/-! ## A range that fills the block (R153) -/

theorem xorBytesFrom_snoc (m : Memory) (a : Nat) (bs : List Byte) (b : Byte) :
    xorBytesFrom m a (bs ++ [b]) =
      (xorBytesFrom m a bs).write (a + bs.length) ((xorBytesFrom m a bs).read (a + bs.length) ^^^ b) := by
  induction bs generalizing m a with
  | nil => rfl
  | cons c bs ih =>
    rw [List.cons_append, xorBytesFrom, ih, List.length_cons, Nat.add_right_comm, Nat.add_assoc, xorBytesFrom]

theorem wf_xorBytesFrom {m : Memory} (w : m.wf = true) {a : Nat} {bs : List Byte}
    (h : a + bs.length ≤ Config.stateBytes) : (xorBytesFrom m a bs).wf = true := by
  induction bs generalizing m a with
  | nil => exact w
  | cons b bs ih =>
    rw [List.length_cons] at h
    exact ih (Memory.wf_write w (by omega) _) (by omega)

/-- R153: bytes that fill the block leave it open up to the last of them, which brings the permutation. -/
theorem absorbBytes_filling {bs : List Byte} {s : State} (hin : CursorInside s)
    (hfull : s.CUR.toNat + bs.length = rateBytes s) :
    absorbBytes bs s =
      .ok { s with S := (keccakf (xorBytesFrom s.S s.CUR.toNat bs)).1, LFSR := 0x8E, CUR := 0 } := by
  obtain ⟨hc, h200⟩ := hin
  cases bs using List.reverseRecOn with
  | nil => simp at hfull; omega
  | append_singleton bs b =>
    rw [List.length_append, List.length_singleton] at hfull
    have hopen : absorbBytes bs s = .ok (afterBytes bs s) := absorbBytes_leavingOpen h200 (by omega)
    have hcur : (afterBytes bs s).CUR.toNat = s.CUR.toNat + bs.length :=
      Nat.mod_eq_of_lt (by rw [Config.stateBytes] at h200; omega)
    have hblock : (afterByte b (afterBytes bs s)).S = xorBytesFrom s.S s.CUR.toNat (bs ++ [b]) := by
      rw [xorBytesFrom_snoc, ← hcur]
      rfl
    have hlast : CursorInside (afterBytes bs s) := ⟨by rw [hcur]; change _ < rateBytes s; omega, h200⟩
    have hsucc := cursor_succ_toNat hlast
    calc absorbBytes (bs ++ [b]) s
        = absorbBytes [b] (afterBytes bs s) := by rw [absorbBytes_append, hopen]; rfl
      _ = .ok ((permute (afterByte b (afterBytes bs s))).setCUR 0) := by
        rw [absorbBytes_cons, absorbByte_filling b (by omega) (by rw [hsucc, hcur]; exact hfull)]
        rfl
      _ = .ok { s with S := (keccakf (xorBytesFrom s.S s.CUR.toNat (bs ++ [b]))).1, LFSR := 0x8E, CUR := 0 } := by
        rw [permute_eq, hblock]
        rfl

/-- Settles O22: the bytes of the slice fill the block, so the block with them XORed in is permuted. -/
theorem absorbFillsABlock : Obligations.AbsorbFillsABlock := by
  intro buf off len s hi hp hl hfull
  have hin := cursorInside_of_inv hi hp
  have hlen := bufferSlice_length hl
  have hbytes := absorbBytes_filling (bs := bufferSlice buf off.toNat len.toNat) hin (by rw [hlen]; exact hfull)
  refine ⟨xorBytesFrom s.S s.CUR.toNat (bufferSlice buf off.toNat len.toNat),
    wf_xorBytesFrom hi.1 (by rw [hlen]; exact hfull ▸ hin.2), fun a => ?_, ?_⟩
  · rw [read_xorBytesFrom, hlen]
    split
    · next ha => rw [bufferSlice_getD _ _ (by omega)]
    · rfl
  · exact absorbCommand_carriedOut hp hl hbytes

/-! ## Chunks (R154) -/

/-- AbsorbByte does not read the responses. -/
theorem absorbByte_respond {b : Byte} {s t : State} (h : absorbByte b s = .ok t) (e : Status) (payload : List Byte) :
    absorbByte b (s.respond e payload) = .ok (t.respond e payload) := by
  obtain ⟨hc, ⟨hfull, rfl⟩ | ⟨hopen, rfl⟩⟩ := absorbByte_cases h
  · rw [absorbByte_filling b (s := s.respond e payload) hc hfull]
    refine congrArg Except.ok ?_
    ext1 <;> simp [afterByte]
  · exact absorbByte_leavingOpen b (s := s.respond e payload) hc hopen

theorem absorbBytes_respond {bs : List Byte} {s t : State} (h : absorbBytes bs s = .ok t) (e : Status)
    (payload : List Byte) : absorbBytes bs (s.respond e payload) = .ok (t.respond e payload) := by
  induction bs generalizing s with
  | nil => cases h; rfl
  | cons b bs ih =>
    rw [absorbBytes_cons] at h
    cases hb : absorbByte b s with
    | error f => rw [hb] at h; cases h
    | ok u =>
      rw [hb] at h
      rw [absorbBytes_cons, absorbByte_respond hb]
      exact ih h

/-- The block `s` after `n` more commands have answered `OK` with nothing (R86). -/
def acknowledged (n : Nat) (s : State) : State := { s with responses := s.responses ++ List.replicate n ⟨.ok, []⟩ }

theorem acknowledged_zero (s : State) : acknowledged 0 s = s := by
  rw [acknowledged, List.replicate_zero, List.append_nil]

theorem acknowledged_respond (n : Nat) (s : State) : acknowledged n (s.respond .ok []) = acknowledged (n + 1) s := by
  rw [acknowledged, State.respond_responses, List.append_assoc, acknowledged, List.replicate_succ]
  rfl

/-- R154: the ABSORBs of the chunks in turn are AbsorbByte on the bytes of their concatenation, with an answer each. -/
theorem execAll_absorbBufs {chunks : List (List Byte)} {s u : State} (hp : s.PHASE = .absorbing)
    (hu : absorbBytes chunks.flatten s = .ok u) :
    execAll (chunks.map Instr.absorbBuf) s = .next (acknowledged chunks.length u) := by
  induction chunks generalizing s u with
  | nil =>
    cases hu
    exact congrArg Host.Outcome.next (acknowledged_zero s).symm
  | cons chunk chunks ih =>
    rw [List.flatten_cons, absorbBytes_append] at hu
    cases hv : absorbBytes chunk s with
    | error f => rw [hv] at hu; cases hu
    | ok v =>
      rw [hv] at hu
      have hpv : v.PHASE = .absorbing := (congrArg State.PHASE (absorbBytes_frame hv)).trans hp
      calc execAll ((chunk :: chunks).map Instr.absorbBuf) s
          = execAll (chunks.map Instr.absorbBuf) (v.respond .ok []) := execAll_cons (exec_absorbBuf hp hv) _
        _ = .next (acknowledged chunks.length (u.respond .ok [])) := ih hpv (absorbBytes_respond hu .ok [])
        _ = .next (acknowledged (chunk :: chunks).length u) := congrArg _ (acknowledged_respond _ u)

/-- R63, R152: ABSORB of a range is ABSORB of the slice it selects. -/
theorem absorbCommand_bufferSlice {buf : List Byte} {offset length : Nat} (h : offset + length ≤ buf.length) (s : State) :
    absorbCommand buf offset length s = absorbCommand (bufferSlice buf offset length) 0 length s := by
  have hrange : rangeLegal (bufferSlice buf offset length) 0 length = rangeLegal buf offset length := by
    simp [rangeLegal, bufferSlice_length h, h]
  have hslice : bufferSlice (bufferSlice buf offset length) 0 length = bufferSlice buf offset length := by
    simp [bufferSlice]
  rw [absorbCommand, absorbCommand, hrange, hslice]

/-- Settles O23: both ways absorb the bytes of the concatenation, and a range is the slice it selects. -/
theorem chunkingHasNoEffect : Obligations.ChunkingHasNoEffect := by
  refine ⟨fun chunks s hi hp => ?_, fun buf off len s hl => absorbCommand_bufferSlice hl s⟩
  obtain ⟨u, hu, -⟩ := absorbBytes_completes chunks.flatten (cursorInside_of_inv hi hp)
  have hresp : u.responses = s.responses := (congrArg State.responses (absorbBytes_frame hu) :)
  refine ⟨_, _, execAll_absorbBufs hp hu, exec_absorbBuf hp hu, rfl, rfl, rfl, rfl, ?_⟩
  rw [acknowledged, hresp]
  rfl

end Sys2Proof.Proofs
end

section
/-! PROOFS. FINALIZE (R155) in closed form: the padded block as one function of `S`, the cursor, the rate and the suffix,
and the digest as the bytes of the states squeezed from it (R156, R157). -/

namespace Sys2Proof.Proofs

open Sys2Proof.Machine Sys2Proof.Claims

/-! ## One byte XORed in -/

/-- `S` with one byte XORed in at offset `a` (R57). -/
def xorAt (m : Memory) (a : Nat) (v : Byte) : Memory := m.write a (m.read a ^^^ v)

theorem xorByte_eq_xorAt {a : Nat} (h : a < Config.stateBytes) (v : Byte) (s : State) :
    xorByte a v s = .ok (s.setS (xorAt s.S a v)) := xorByte_inside h v s

theorem read_xorAt (m : Memory) (a : Nat) (v : Byte) (a' : Nat) :
    (xorAt m a v).read a' = if a' = a then m.read a' ^^^ v else m.read a' := by
  rw [xorAt, Memory.read_write]
  by_cases h : a' = a
  · rw [if_pos h.symm, if_pos h, h]
  · rw [if_neg (Ne.symm h), if_neg h]

theorem wf_xorAt {m : Memory} (w : m.wf = true) {a : Nat} (h : a < Config.stateBytes) (v : Byte) :
    (xorAt m a v).wf = true := Memory.wf_write w h _

/-! ## What a permutation leaves in `S` -/

/-- `S` after `call KECCAKF` (R153, R155). -/
def permutedMemory (m : Memory) : Memory := (keccakf m).1

theorem keccakf_eq (m : Memory) : keccakf m = (permutedMemory m, 0x8E) := Prod.ext rfl (keccakf_snd m)

theorem setEngine_setEngine (s : State) (e e' : Engine) : (s.setEngine e).setEngine e' = s.setEngine e' := rfl

theorem permute_eq_setEngine (s : State) : permute s = s.setEngine (permutedMemory s.S, 0x8E) := by
  rw [permute, keccakf_eq]

/-- A permutation supersedes what the one before it left (R138). -/
theorem permute_setEngine (s : State) (e : Engine) :
    permute (s.setEngine e) = s.setEngine (permutedMemory e.1, 0x8E) := by
  rw [permute_eq_setEngine, setEngine_setEngine, State.setEngine_S]

theorem iterate_permute (n : Nat) (s : State) (m : Memory) :
    permute^[n] (s.setEngine (m, 0x8E)) = s.setEngine (permutedMemory^[n] m, 0x8E) := by
  induction n with
  | zero => rfl
  | succ n ih => rw [Function.iterate_succ_apply', ih, permute_setEngine, Function.iterate_succ_apply']

/-! ## The padded block (R156) -/

/-- The suffix alone fills the block of `r` bytes, its top bit being the block's last (R155 step 2, R156 case (c)). -/
abbrev SuffixFills (r c : Nat) (suffix : Byte) : Prop := c + 1 = r ∧ suffix.getLsbD 7 = true

theorem suffixFillsBlock_iff (s : State) : suffixFillsBlock s = true ↔ SuffixFills (rateBytes s) s.CUR.toNat s.SUFFIX := by
  have htop : ∀ v : Byte, v &&& 0x80#8 ≠ 0#8 ↔ v.getLsbD 7 = true := by decide +kernel
  rw [suffixFillsBlock, Bool.and_eq_true, decide_eq_true_iff, decide_eq_true_iff, htop, and_comm, SuffixFills]

/-- The block FINALIZE permutes last, from `S`, the rate in bytes, the cursor and the suffix (R155 steps 1 to 3). -/
def paddedMemory (m : Memory) (r c : Nat) (suffix : Byte) : Memory :=
  xorAt (if SuffixFills r c suffix then permutedMemory (xorAt m c suffix) else xorAt m c suffix) (r - 1) finalPad

theorem paddedMemory_of_fills {r c : Nat} {suffix : Byte} (h : SuffixFills r c suffix) (m : Memory) :
    paddedMemory m r c suffix = xorAt (permutedMemory (xorAt m c suffix)) (r - 1) finalPad := by
  rw [paddedMemory, if_pos h]

theorem paddedMemory_of_not_fills {r c : Nat} {suffix : Byte} (h : ¬ SuffixFills r c suffix) (m : Memory) :
    paddedMemory m r c suffix = xorAt (xorAt m c suffix) (r - 1) finalPad := by
  rw [paddedMemory, if_neg h]

/-- The padded block is the one of the cases of R156. -/
theorem paddedBlock_paddedMemory {s : State} (w : s.S.wf = true) (hin : CursorInside s) :
    paddedBlock s (paddedMemory s.S (rateBytes s) s.CUR.toNat s.SUFFIX) := by
  obtain ⟨hc, h200⟩ := hin
  have hc200 : s.CUR.toNat < Config.stateBytes := by omega
  have hr200 : rateBytes s - 1 < Config.stateBytes := by omega
  have hw1 := wf_xorAt w hc200 s.SUFFIX
  unfold paddedBlock
  rw [← rateBytes_eq]
  by_cases hfills : SuffixFills (rateBytes s) s.CUR.toNat s.SUFFIX
  · have hlast : rateBytes s - 1 = s.CUR.toNat := by omega
    rw [paddedMemory_of_fills hfills, if_pos hfills, hlast]
    exact ⟨_, hw1, wf_xorAt (wf_keccakf hw1) hc200 _, read_xorAt _ _ _, read_xorAt _ _ _⟩
  · rw [paddedMemory_of_not_fills hfills, if_neg hfills]
    have hw := wf_xorAt hw1 hr200 finalPad
    split
    · next hlast =>
      refine ⟨hw, fun a => ?_⟩
      rw [read_xorAt, read_xorAt, ← hlast, Nat.add_sub_cancel]
      split
      · exact BitVec.xor_assoc _ _ _
      · rfl
    · next hopen =>
      refine ⟨hw, fun a => ?_⟩
      rw [read_xorAt, read_xorAt]
      by_cases ha : a = s.CUR.toNat
      · rw [if_neg (by omega), if_pos ha, if_pos ha]
      · rw [if_neg ha, if_neg ha]
        rfl

theorem permuteIfFilled_S (s : State) : (permuteIfFilled s).S =
    if SuffixFills (rateBytes s) s.CUR.toNat s.SUFFIX then permutedMemory s.S else s.S := by
  unfold permuteIfFilled
  simp only [suffixFillsBlock_iff]
  split <;> rfl

/-- Steps 1 to 4 of FINALIZE pad the block and permute it (R155). -/
theorem padAndPermute_eq {s : State} (hin : CursorInside s) : padAndPermute s =
    .ok (s.setEngine (permutedMemory (paddedMemory s.S (rateBytes s) s.CUR.toNat s.SUFFIX), 0x8E)) := by
  obtain ⟨hc, h200⟩ := hin
  have hsuffix := xorByte_eq_xorAt (Nat.lt_of_lt_of_le hc h200) s.SUFFIX s
  have hkept := (engineOnly_of_xorByte hsuffix).trans (engineOnly_permuteIfFilled _)
  have hrate := rateBytes_congr (congrArg State.RATE hkept.1)
  have hpad := padLastByte_inside (hrate ▸ Nat.zero_lt_of_lt hc) (hrate ▸ h200)
  refine padAndPermute_eq_ok.mpr ⟨_, _, hsuffix, hpad, ?_⟩
  rw [permute_eq_setEngine, State.setS_S, hrate, permuteIfFilled_S, hkept.1]
  rfl

/-! ## The squeeze (R157) -/

/-- `n` bytes squeezed from `m` in blocks of `r`: byte k is byte `k mod r` of the state permuted `k div r` times. -/
def squeezedBytes (r n : Nat) (m : Memory) : List Byte :=
  (List.range n).map fun k => (permutedMemory^[k / r] m).read (k % r)

theorem squeezedBytes_length (r n : Nat) (m : Memory) : (squeezedBytes r n m).length = n := by simp [squeezedBytes]

theorem squeezedBytes_getElem? (r : Nat) {n k : Nat} (h : k < n) (m : Memory) :
    (squeezedBytes r n m)[k]? = some ((permutedMemory^[k / r] m).read (k % r)) := by simp [squeezedBytes, h]

/-- The bytes of one block are read off the state as it is. -/
theorem squeezedBytes_within {r n : Nat} (h : n ≤ r) (m : Memory) : squeezedBytes r n m = m.readList 0 n := by
  refine List.ext_getElem? fun k => ?_
  by_cases hk : k < n
  · have hkr : k < r := by omega
    rw [squeezedBytes_getElem? r hk, Memory.readList_getElem? m 0 n k hk, Nat.div_eq_of_lt hkr, Nat.mod_eq_of_lt hkr,
      Nat.zero_add]
    rfl
  · rw [List.getElem?_eq_none (by rw [squeezedBytes_length]; omega),
      List.getElem?_eq_none (by rw [Memory.readList_length]; omega)]

/-- After the bytes of the first block come those squeezed from the next state. -/
theorem squeezedBytes_add {r : Nat} (hr : 0 < r) (n : Nat) (m : Memory) :
    squeezedBytes r (r + n) m = m.readList 0 r ++ squeezedBytes r n (permutedMemory m) := by
  rw [← squeezedBytes_within le_rfl, squeezedBytes, List.range_add, List.map_append, List.map_map]
  refine congrArg₂ _ rfl (List.map_congr_left fun k _ => ?_)
  rw [Function.comp_apply, Nat.add_div_left k hr, Nat.add_mod_left, Function.iterate_succ_apply]

/-- `ceil(n / r) − 1` is 0 when one block is enough (R157). -/
theorem furtherBlocks_within {r n : Nat} (hr : 0 < r) (h : n ≤ r) : (n + r - 1) / r - 1 = 0 :=
  Nat.sub_eq_zero_of_le (Nat.lt_succ_iff.mp ((Nat.div_lt_iff_lt_mul hr).mpr (by omega)))

/-- A full block in front of at least one more byte adds one to `ceil(n / r) − 1` (R157). -/
theorem furtherBlocks_add {r : Nat} (hr : 0 < r) (n : Nat) :
    (r + (n + 1) + r - 1) / r - 1 = (n + 1 + r - 1) / r - 1 + 1 := by
  have hlong : r + (n + 1) + r - 1 = n + r + r := by omega
  have hshort : n + 1 + r - 1 = n + r := by omega
  rw [hlong, hshort, Nat.add_div_right _ hr, Nat.add_div_right _ hr]
  rfl

/-- Step 5 of FINALIZE: the bytes, and one permutation for each block but the first (R155, R157). -/
theorem squeeze_eq {r : Nat} (hr : 0 < r) : ∀ (fuel rem : Nat) (s : State), rem ≤ fuel →
    squeeze r fuel rem s = (squeezedBytes r rem s.S, permute^[(rem + r - 1) / r - 1] s)
  | fuel, 0, s, _ => by
    rw [furtherBlocks_within hr (Nat.zero_le r)]
    cases fuel <;> rfl
  | fuel + 1, rem + 1, s, h => by
    rw [squeeze_turn, if_neg (Nat.succ_ne_zero rem)]
    by_cases hlast : rem + 1 ≤ r
    · rw [Nat.min_eq_left hlast, Nat.sub_self, if_pos rfl, squeezedBytes_within hlast, furtherBlocks_within hr hlast]
      rfl
    · obtain ⟨n, hn⟩ : ∃ n, rem + 1 = r + (n + 1) := ⟨rem - r, by omega⟩
      rw [hn, Nat.min_eq_right (Nat.le_add_right _ _), Nat.add_sub_cancel_left, if_neg (Nat.succ_ne_zero n),
        squeeze_eq hr fuel (n + 1) (permute s) (by omega), squeezedBytes_add hr, furtherBlocks_add hr,
        Function.iterate_succ_apply, permute_S]
      rfl

/-! ## FINALIZE -/

theorem squeezeDigest_setEngine {s : State} (hr : 0 < rateBytes s) (m : Memory) :
    squeezeDigest (s.setEngine (m, 0x8E)) = (squeezedBytes (rateBytes s) s.OUTLEN.toNat m,
      s.setEngine (permutedMemory^[(s.OUTLEN.toNat + rateBytes s - 1) / rateBytes s - 1] m, 0x8E)) := by
  rw [← iterate_permute]
  exact squeeze_eq hr _ _ _ le_rfl

theorem respond_setPHASE_setEngine (s : State) (m : Memory) (l : Byte) (p : Phase) (e : Status) (payload : List Byte) :
    ((s.setEngine (m, l)).setPHASE p).respond e payload =
      { s with S := m, LFSR := l, PHASE := p, responses := s.responses ++ [⟨e, payload⟩] } := rfl

/-- The bytes FINALIZE returns on an absorbing block (R155). -/
def digestOf (s : State) : List Byte :=
  squeezedBytes (rateBytes s) s.OUTLEN.toNat (permutedMemory (paddedMemory s.S (rateBytes s) s.CUR.toNat s.SUFFIX))

/-- The bytes FINALIZE returns and the state it leaves, for an absorbing block with its cursor inside it (R155). -/
theorem exec_finalize {s : State} (hp : s.PHASE = .absorbing) (hin : CursorInside s) :
    exec .finalize s = .next { s with
      S := permutedMemory^[(s.OUTLEN.toNat + rateBytes s - 1) / rateBytes s - 1]
        (permutedMemory (paddedMemory s.S (rateBytes s) s.CUR.toNat s.SUFFIX))
      LFSR := 0x8E
      PHASE := .finalized
      responses := s.responses ++ [⟨.ok, digestOf s⟩] } := by
  refine (finalize_carriedOut hp (padAndPermute_eq hin)).trans ?_
  rw [squeezeDigest_setEngine (Nat.zero_lt_of_lt hin.1), respondOk, respond_setPHASE_setEngine]
  rfl

/-- Settles O25: the padded block is the one of R156, and the digest and what is left in `S` are those of the squeeze. -/
theorem finalizeReturnsTheDigest : Obligations.FinalizeReturnsTheDigest := by
  refine ⟨⟨rfl, rfl⟩, fun s hi hp => ?_, fun s hp => finalize_turnedAway hp⟩
  have hin := cursorInside_of_inv hi hp
  exact ⟨_, _, paddedBlock_paddedMemory hi.1 hin, squeezedBytes_length _ _ _,
    fun k hk => squeezedBytes_getElem? _ hk _, exec_finalize hp hin⟩

end Sys2Proof.Proofs
end

section
/-! PROOFS. A whole computation (R160, R161): its digest is a function of the parameters and the message. -/

namespace Sys2Proof.Proofs

open Sys2Proof.Machine Sys2Proof.Claims

theorem execAll_append {l : List Instr} {s t : State} (h : execAll l s = .next t) (l' : List Instr) :
    execAll (l ++ l') s = execAll l' t := by
  induction l generalizing s with
  | nil => cases h; rfl
  | cons i l ih =>
    cases hi : exec i s with
    | next u =>
      rw [execAll_cons hi] at h
      rw [List.cons_append, execAll_cons hi, ih h]
    | fault f => rw [execAll, hi] at h; cases h
    | refused r => rw [execAll, hi] at h; cases h

/-- The digest of a message for a rate of `r` bytes, a suffix and a length (R155, R161). -/
def messageDigest (r : Nat) (suffix : Byte) (outlen : Nat) (msg : List Byte) : List Byte :=
  squeezedBytes r outlen (permutedMemory (paddedMemory (absorbedMemory r msg) r (msg.length % r) suffix))

/-- The block after a message returns the digest of that message, whatever the block held before (R161). -/
theorem digestOf_afterMessage {s : State} (h0 : 0 < rateBytes s) (h200 : rateBytes s ≤ Config.stateBytes)
    (msg : List Byte) :
    digestOf (afterMessage s msg) = messageDigest (rateBytes s) s.SUFFIX s.OUTLEN.toNat msg := by
  rw [digestOf, afterMessage_CUR_toNat h0 h200]
  rfl

/-- The block `s` after INITIALIZE and an ABSORB of each chunk, every command answered (R160). -/
def afterChunks (s : State) (chunks : List (List Byte)) : State :=
  acknowledged chunks.length (afterMessage (afterInitialise s) chunks.flatten)

theorem afterChunks_responses (s : State) (chunks : List (List Byte)) :
    (afterChunks s chunks).responses = s.responses ++ List.replicate (chunks.length + 1) ⟨.ok, []⟩ :=
  List.append_assoc _ _ _

section
variable {s : State} (hi : s.Inv) (hp : s.PHASE ≠ .unconfigured)
include hi hp

theorem rateBytes_afterInitialise_pos : 0 < rateBytes (afterInitialise s) := (rateBytes_pos hi hp :)

theorem rateBytes_afterInitialise_le : rateBytes (afterInitialise s) ≤ Config.stateBytes := (rateBytes_le hi hp :)

theorem execAll_chunks (chunks : List (List Byte)) :
    execAll ([.initialise] ++ chunks.map Instr.absorbBuf) s = .next (afterChunks s chunks) := by
  have hmsg := absorbBytes_afterMessage (rateBytes_afterInitialise_pos hi hp) (rateBytes_afterInitialise_le hi hp)
    chunks.flatten
  rw [← afterInitialise_eq_afterMessage] at hmsg
  exact (execAll_cons (exec_initialise hi.1 hp) _).trans (execAll_absorbBufs rfl hmsg)

theorem cursorInside_afterChunks (chunks : List (List Byte)) : CursorInside (afterChunks s chunks) := by
  have h0 := rateBytes_afterInitialise_pos hi hp
  have h200 := rateBytes_afterInitialise_le hi hp
  exact ⟨afterMessage_CUR_toNat h0 h200 chunks.flatten ▸ Nat.mod_lt _ h0, h200⟩

theorem digestOf_afterChunks (chunks : List (List Byte)) :
    digestOf (afterChunks s chunks) = messageDigest (rateBytes s) s.SUFFIX s.OUTLEN.toNat chunks.flatten :=
  digestOf_afterMessage (rateBytes_afterInitialise_pos hi hp) (rateBytes_afterInitialise_le hi hp) chunks.flatten

/-- R160, R161: a computation on a configured block completes and answers the digest of the chunks' concatenation. -/
theorem execAll_computation (chunks : List (List Byte)) :
    ∃ t, execAll (computation chunks) s = .next t ∧
      t.responses = s.responses ++ List.replicate (chunks.length + 1) ⟨.ok, []⟩ ++
        [⟨.ok, messageDigest (rateBytes s) s.SUFFIX s.OUTLEN.toNat chunks.flatten⟩] := by
  have hfinalize := exec_finalize (s := afterChunks s chunks) rfl (cursorInside_afterChunks hi hp chunks)
  refine ⟨_, (execAll_append (execAll_chunks hi hp chunks) _).trans (execAll_cons hfinalize []), ?_⟩
  rw [afterChunks_responses, digestOf_afterChunks hi hp]

end

/-- Settles O26: both computations answer the digest of one message under the same parameters. -/
theorem digestDependsOnMessageAndParametersOnly : Obligations.DigestDependsOnMessageAndParametersOnly := by
  intro s s' chunks chunks' hi hi' hp hp' hrate hsuffix houtlen hmsg
  obtain ⟨t, ht, hresp⟩ := execAll_computation hi hp chunks
  obtain ⟨t', ht', hresp'⟩ := execAll_computation hi' hp' chunks'
  rw [← rateBytes_congr hrate, ← hsuffix, ← houtlen, ← hmsg] at hresp'
  exact ⟨t, t', _, ht, ht', hresp, hresp'⟩

end Sys2Proof.Proofs
end

section
/-! PROOFS. Exceptions (R188, R189): a command that answers another status than `OK` does nothing but answer, and no operation
depends on the responses already given. -/

namespace Sys2Proof.Proofs

open Sys2Proof.Machine

/-! ## An exception writes nothing (R188) -/

theorem status_eq_ok_of_respond {s u : State} {payload : List Byte} {r : Response} (hu : u.responses = s.responses)
    (hr : (u.respond .ok payload).responses = s.responses ++ [r]) : r.status = .ok := by
  rw [State.respond_responses, hu, List.append_cancel_left_eq, List.singleton_inj] at hr
  exact hr ▸ rfl

/-- Of all effects an operation can have, an exception alone adds a response whose status is not `OK`. -/
theorem Effect.eq_respond {s t : State} {r : Response} (h : Effect s t) (hr : t.responses = s.responses ++ [r])
    (hne : r.status ≠ .ok) : r.payload = [] ∧ t = s.respond r.status r.payload := by
  cases h with
  | rejected =>
    rw [State.respond_responses, List.append_cancel_left_eq, List.singleton_inj] at hr
    subst hr
    exact ⟨rfl, rfl⟩
  | configured | cleared => exact absurd (status_eq_ok_of_respond (by simp) hr) hne
  | absorbed _ hu => exact absurd (status_eq_ok_of_respond (congrArg State.responses (absorbBytes_frame hu) :) hr) hne
  | finalized _ hu => exact absurd (status_eq_ok_of_respond (congrArg State.responses hu.1 :) hr) hne
  | unit => simp at hr

/-- Settles O14: of the effects an operation can have, only an exception fits. -/
theorem exceptionsWriteNothing : Obligations.ExceptionsWriteNothing :=
  fun _ _ _ _ h hr hne => (exec_effect h).eq_respond hr hne

/-! ## The parts of FINALIZE do not read the responses -/

theorem xorByte_respond {a : Nat} {v : Byte} {s t : State} (h : xorByte a v s = .ok t) (e : Status)
    (payload : List Byte) : xorByte a v (s.respond e payload) = .ok (t.respond e payload) := by
  obtain ⟨ha, rfl⟩ := xorByte_eq_ok.mp h
  exact xorByte_inside ha v (s.respond e payload)

theorem setEngine_respond (s : State) (n : Engine) (e : Status) (payload : List Byte) :
    (s.respond e payload).setEngine n = (s.setEngine n).respond e payload := rfl

theorem permute_respond (s : State) (e : Status) (payload : List Byte) :
    permute (s.respond e payload) = (permute s).respond e payload := by
  rw [permute, State.respond_S, setEngine_respond, permute]

theorem permuteIfFilled_respond (s : State) (e : Status) (payload : List Byte) :
    permuteIfFilled (s.respond e payload) = (permuteIfFilled s).respond e payload := by
  have hfills : suffixFillsBlock (s.respond e payload) = suffixFillsBlock s := rfl
  unfold permuteIfFilled
  rw [hfills]
  split
  · exact permute_respond s e payload
  · rfl

theorem padLastByte_respond {s t : State} (h : padLastByte s = .ok t) (e : Status) (payload : List Byte) :
    padLastByte (s.respond e payload) = .ok (t.respond e payload) := by
  obtain ⟨hpos, hxor⟩ := padLastByte_eq_ok.mp h
  exact padLastByte_eq_ok.mpr ⟨hpos, xorByte_respond hxor e payload⟩

theorem padAndPermute_respond {s t : State} (h : padAndPermute s = .ok t) (e : Status) (payload : List Byte) :
    padAndPermute (s.respond e payload) = .ok (t.respond e payload) := by
  obtain ⟨s1, s3, h1, h3, rfl⟩ := padAndPermute_eq_ok.mp h
  refine padAndPermute_eq_ok.mpr ⟨_, _, xorByte_respond h1 e payload, ?_, permute_respond s3 e payload⟩
  rw [permuteIfFilled_respond]
  exact padLastByte_respond h3 e payload

theorem squeeze_respond (r : Nat) (e : Status) (payload : List Byte) : ∀ (fuel rem : Nat) (s : State),
    squeeze r fuel rem (s.respond e payload) = ((squeeze r fuel rem s).1, (squeeze r fuel rem s).2.respond e payload)
  | 0, _, _ => rfl
  | fuel + 1, rem, s => by
    simp only [squeeze_turn, permute_respond, squeeze_respond r e payload fuel, State.respond_S]
    split_ifs <;> rfl

/-! ## Errors are not latched (R189) -/

/-- If `o`, an outcome of the state `s`, is a next state, then `o'` is the same next state but for the response `x`, which
stands between the responses of `s` and the new ones. -/
def SameAfterResponse (s : State) (x : Response) (o o' : StepOutcome) : Prop :=
  ∀ u, o = .next u → ∃ new, u.responses = s.responses ++ new ∧
    o' = .next { u with responses := s.responses ++ [x] ++ new }

section
variable (e : Status) (payload : List Byte)

theorem sameAfterResponse_raise (s : State) (e' : Status) :
    SameAfterResponse s ⟨e, payload⟩ (raise e' s) (raise e' (s.respond e payload)) := by
  intro u hu
  cases hu
  exact ⟨[⟨e', []⟩], rfl, rfl⟩

theorem sameAfterResponse_respondOk {s t : State} (ht : t.responses = s.responses) (out : List Byte) :
    SameAfterResponse s ⟨e, payload⟩ (respondOk out t) (respondOk out (t.respond e payload)) := by
  intro u hu
  cases hu
  exact ⟨[⟨.ok, out⟩], by rw [State.respond_responses, ht], by rw [← ht]; rfl⟩

theorem construct_sameAfterResponse (r c : BitVec 16) (x : Byte) (o : BitVec 32) (s : State) :
    SameAfterResponse s ⟨e, payload⟩ (construct r c x o s) (construct r c x o (s.respond e payload)) := by
  unfold construct
  rw [State.respond_PHASE]
  split_ifs
  · exact sameAfterResponse_raise e payload s _
  · exact sameAfterResponse_respondOk e payload (s := s) (t := (s.setParameters r c x o).setPHASE .configured) (by simp) []
  · exact sameAfterResponse_raise e payload s _

theorem initialise_sameAfterResponse (s : State) :
    SameAfterResponse s ⟨e, payload⟩ (execInitialise s) (execInitialise (s.respond e payload)) := by
  by_cases hp : s.PHASE = .unconfigured
  · rw [initialise_turnedAway hp, initialise_turnedAway (s := s.respond e payload) hp]
    exact sameAfterResponse_raise e payload s _
  · rw [initialise_carriedOut hp, initialise_carriedOut (s := s.respond e payload) hp, State.respond_S]
    generalize clearState s.S = m
    exact sameAfterResponse_respondOk e payload (s := s) (t := ((s.setS m).setCUR 0).setPHASE .absorbing) (by simp) []

theorem absorbCommand_sameAfterResponse (buf : List Byte) (offset length : Nat) (s : State) :
    SameAfterResponse s ⟨e, payload⟩ (absorbCommand buf offset length s)
      (absorbCommand buf offset length (s.respond e payload)) := by
  obtain ⟨hp, hc⟩ | ⟨hp, hl, hc⟩ | ⟨hp, hl, hfault, hok⟩ := absorbCommand_cases buf offset length s
  · rw [hc, absorbCommand_turnedAway (s := s.respond e payload) buf offset length hp]
    exact sameAfterResponse_raise e payload s _
  · rw [hc, absorbCommand_outOfRange (s := s.respond e payload) hp hl]
    exact sameAfterResponse_raise e payload s _
  · cases hb : absorbBytes (bufferSlice buf offset length) s with
    | error f =>
      intro u hu
      cases (hfault f hb).symm.trans hu
    | ok t =>
      rw [hok t hb, absorbCommand_carriedOut (s := s.respond e payload) hp hl (absorbBytes_respond hb e payload)]
      exact sameAfterResponse_respondOk e payload (congrArg State.responses (absorbBytes_frame hb) :) []

theorem finalize_sameAfterResponse (s : State) :
    SameAfterResponse s ⟨e, payload⟩ (execFinalize s) (execFinalize (s.respond e payload)) := by
  by_cases hp : s.PHASE = .absorbing
  · cases hpad : padAndPermute s with
    | error f =>
      intro u hu
      rw [execFinalize, if_neg (not_not.mpr hp), hpad] at hu
      cases hu
    | ok t =>
      have hsqueeze : squeezeDigest (t.respond e payload) = ((squeezeDigest t).1, (squeezeDigest t).2.respond e payload) :=
        squeeze_respond _ e payload _ _ t
      obtain ⟨hframe, -⟩ := (engineOnly_of_padAndPermute hpad).trans (engineOnly_squeezeDigest t)
      rw [finalize_carriedOut hp hpad,
        finalize_carriedOut (s := s.respond e payload) hp (padAndPermute_respond hpad e payload), hsqueeze]
      exact sameAfterResponse_respondOk e payload (t := (squeezeDigest t).2.setPHASE .finalized)
        (congrArg State.responses hframe :) _
  · rw [finalize_turnedAway hp, finalize_turnedAway (s := s.respond e payload) hp]
    exact sameAfterResponse_raise e payload s _

/-- A unit operation works on `S` and LFSR and answers the host nothing (R138). -/
theorem unit_sameAfterResponse {i : Instr} (hf : i.format = .uop) (s : State) :
    SameAfterResponse s ⟨e, payload⟩ (exec i s) (exec i (s.respond e payload)) := by
  obtain ⟨f, g, hexec⟩ := exec_unit hf
  intro u hu
  cases (hexec s).symm.trans hu
  exact ⟨[], (List.append_nil _).symm, by rw [hexec, List.append_nil]; rfl⟩

/-- No operation reads the responses already given. -/
theorem exec_sameAfterResponse (i : Instr) (s : State) :
    SameAfterResponse s ⟨e, payload⟩ (exec i s) (exec i (s.respond e payload)) := by
  cases i with
  | construct r c x o => exact construct_sameAfterResponse e payload r c x o s
  | digest224 | digest256 | digest384 | digest512 => exact construct_sameAfterResponse e payload _ _ _ _ s
  | initialise => exact initialise_sameAfterResponse e payload s
  | absorb buf off len => exact absorbCommand_sameAfterResponse e payload buf off.toNat len.toNat s
  | absorbBuf buf => exact absorbCommand_sameAfterResponse e payload buf 0 buf.length s
  | finalize => exact finalize_sameAfterResponse e payload s
  | loadlane | savelane | xorlane | lfsrstep | theta | rhopi | chi | iota | round | keccakf =>
    exact unit_sameAfterResponse e payload rfl s

end

/-- Settles O15: the failed command left its response alone, which the operation after it does not read. -/
theorem errorsAreNotLatched : Obligations.ErrorsAreNotLatched := by
  intro i j s t u r hi hr hne hj
  obtain ⟨-, rfl⟩ := (exec_effect hi).eq_respond hr hne
  obtain ⟨new, hnew, hj'⟩ := exec_sameAfterResponse r.status r.payload j s u hj
  exact ⟨_, hj', rfl, new, hnew, rfl⟩

end Sys2Proof.Proofs
end
